-- ==== Sys2Proof/Word.lean ====
section
/-! DEFINITION. The two word types of the block: the byte of a window cell and the 16-bit register (R6, R7, R13). -/

namespace Sys2Proof

/-- A byte, the addressable unit of both windows (R6, R7). -/
abbrev Byte := BitVec 8

/-- A 16-bit value, the width of every register (R6, R13). -/
abbrev Word := BitVec 16

end Sys2Proof
end

