-- ==== Sys2Proof/Config.lean ====
section
/-! DEFINITION. The implementation parameters of R6: the number of cells of each window. -/

namespace Sys2Proof

/-- The parameters R6 leaves OPEN, "arguments of the model". The step takes no argument beside the state, so the state
carries them and no step changes them (log 1; DESIGN CHOICE, safe: every statement quantifies over them). -/
structure Config where
  /-- `IN_SIZE`: number of cells of the IN window (R6, R26). -/
  inSize : Nat
  /-- `OUT_SIZE`: number of cells of the OUT window (R6, R27). -/
  outSize : Nat
deriving DecidableEq, Repr

/-- The instance that `State.reset` names: 529 cells each, the size R6 gives as enough for every frame of the shapes of
R121 (log 2; DESIGN CHOICE, unsafe: the spec fixes no size, so no statement rests on this one). -/
def Config.platform : Config := ⟨529, 529⟩

end Sys2Proof
end

