-- ==== Sys2Proof/Syntax.lean ====
section
/-! DEFINITION. Syntax: the 14 commands (R62), the fields of a command word (R60), the registers (R13), and the lines of
a host script (R70). -/

namespace Sys2Proof

/-- The commands of R62, one constructor per row of the opcode table. No command has an operand field (R60): every
operand is implicit (R67). -/
inductive Instr where
  /-- `CRC16`, word 0x0000 (R105). -/
  | crc16
  /-- `LRC`, word 0x0001 (R106). -/
  | lrc
  /-- `VCRC16`, word 0x0002 (R107). -/
  | vcrc16
  /-- `VLRC`, word 0x0003 (R108). -/
  | vlrc
  /-- `PRTU.REQ`, word 0x0010 (R123). -/
  | prtuReq
  /-- `PRTU.RSP`, word 0x0011 (R124). -/
  | prtuRsp
  /-- `PASC`, word 0x0012 (R143). -/
  | pasc
  /-- `ERTU`, word 0x0014 (R125). -/
  | ertu
  /-- `EASC`, word 0x0016 (R146). -/
  | easc
  /-- `PRTU.REQ.U`, word 0x0018 (R161). -/
  | prtuReqU
  /-- `PRTU.RSP.U`, word 0x0019 (R162). -/
  | prtuRspU
  /-- `PASC.U`, word 0x001A (R163). -/
  | pascU
  /-- `ERTU.U`, word 0x001C (R164). -/
  | ertuU
  /-- `EASC.U`, word 0x001E (R165). -/
  | eascU
deriving DecidableEq, Repr

/-- The fields of a command word (R60). In the checksum class bit 1 is `V` and bit 0 is `K`. -/
structure CmdFields where
  /-- Bits 15:5, `zero`. -/
  zero : BitVec 11
  /-- Bit 4, `F`: false = checksum class, true = framer class. -/
  f : Bool
  /-- Bit 3, `U`: unchecked form. -/
  u : Bool
  /-- Bit 2, `E`: encode. -/
  e : Bool
  /-- Bit 1, `T` (ASCII transport), or `V` (verify) in the checksum class. -/
  t : Bool
  /-- Bit 0, `D` (response), or `K` (LRC) in the checksum class. -/
  d : Bool
deriving DecidableEq, Repr

/-- Why a command word is illegal (R61, R63): the decoder rejects by name. -/
inductive IllegalWord where
  /-- A bit of 15:5 is set. -/
  | zeroField
  /-- Checksum class with `U` set. -/
  | checksumUnchecked
  /-- Checksum class with `E` set (and `U` clear). -/
  | checksumEncode
  /-- Framer class with `D` and `E` set. -/
  | directionOnEncode
  /-- Framer class with `D` and `T` set (and `E` clear). -/
  | directionOnAscii
deriving DecidableEq, Repr

/-- Direction of an RTU frame, bit `D` of the command word (R60, R122). -/
inductive Dir where
  | req
  | rsp
deriving DecidableEq, Repr

/-- The twelve registers (R13). -/
inductive Reg where
  | cmd | status | inLen | outCap | unit | result | addr | pduOff | pduLen | frameLen | outLen | fault
deriving DecidableEq, Repr

/-- What a host read names (R70): a register number, a cell of IN, a cell of OUT. -/
inductive Source where
  | reg (no : Nat)
  | inCell (a : Nat)
  | outCell (a : Nat)
deriving DecidableEq, Repr

/-- The six host actions (R41, R70), with the register number and window index the host gives, whatever they are. -/
inductive HostAction where
  /-- `set REG, v`, tuple (RW, no, v). -/
  | setReg (no : Nat) (v : Word)
  /-- `get REG`, tuple (RR, no). -/
  | getReg (no : Nat)
  /-- `in[a] = v`, tuple (IW, a, v). -/
  | setIn (a : Nat) (v : Byte)
  /-- `get in[a]`, tuple (IR, a). -/
  | getIn (a : Nat)
  /-- `out[a] = v`, tuple (OW, a, v). -/
  | setOut (a : Nat) (v : Byte)
  /-- `get out[a]`, tuple (OR, a). -/
  | getOut (a : Nat)
deriving DecidableEq, Repr

/-- A line of a host script (R70): a host action; the platform's reset event (R190); or the host's own control flow over
values it has read, where a label is the position it stands at. -/
inductive HostLine where
  | action (a : HostAction)
  /-- The reset event (R190). -/
  | reset
  /-- `if X == v goto Label`. -/
  | ifEq (x : Source) (v : Word) (target : Nat)
  /-- `goto Label`. -/
  | goto (target : Nat)
  /-- `expect X == v`: "an assertion of the program text about a get; not an action". -/
  | expect (x : Source) (v : Word)
  /-- `halt`. -/
  | halt
deriving DecidableEq, Repr

end Sys2Proof
end

