-- ==== Sys2Proof/WellFormed.lean ====
section
/-! DEFINITION. Well-formedness: which field tuples are legal command words (R61), which parameters are allowed (R6), and
which host actions name something that exists (R13, R41, U7). An `Instr` has no operand, so every `Instr` is well formed. -/

namespace Sys2Proof

/-- R61: `c[15:5] = 0` and either (`F` = 0 and `c[3:2] = 0`) or (`F` = 1 and (`D` = 0 or (`E` = 0 and `T` = 0))). -/
def CmdFields.legal (x : CmdFields) : Bool :=
  x.zero == 0 && ((!x.f && !x.u && !x.e) || (x.f && (!x.d || (!x.e && !x.t))))

/-- R6: 1 ≤ IN_SIZE ≤ 65535 and 1 ≤ OUT_SIZE ≤ 65535. -/
def Config.wf (c : Config) : Bool :=
  decide (1 ≤ c.inSize) && decide (c.inSize ≤ 65535) && decide (1 ≤ c.outSize) && decide (c.outSize ≤ 65535)

/-- A host action names an existing register (R13) or an existing cell (R41). -/
def HostAction.wf (c : Config) : HostAction → Bool
  | .setReg no _ => decide (no < 12)
  | .getReg no => decide (no < 12)
  | .setIn a _ => decide (a < c.inSize)
  | .getIn a => decide (a < c.inSize)
  | .setOut a _ => decide (a < c.outSize)
  | .getOut a => decide (a < c.outSize)

/-- A script line is well formed when its action is, and when its label stands in the script or right after it. -/
def HostLine.wf (c : Config) (len : Nat) : HostLine → Bool
  | .action a => a.wf c
  | .reset => true
  | .ifEq _ _ t => decide (t ≤ len)
  | .goto t => decide (t ≤ len)
  | .expect _ _ => true
  | .halt => true

end Sys2Proof
end

