-- ==== Sys2Proof/Decode.lean ====
section
/-! DEFINITION. Decoding of command words (R60, R61), the table of R62 as the encoder, register numbers (R13), and the
pseudo forms of the host notation (R70). -/

namespace Sys2Proof

/-- The fields of a word, by the bit positions of R60. -/
def fieldsOfWord (w : Word) : CmdFields where
  zero := w.extractLsb' 5 11
  f := w.getLsbD 4
  u := w.getLsbD 3
  e := w.getLsbD 2
  t := w.getLsbD 1
  d := w.getLsbD 0

/-- What each legal field tuple selects (R60), and why the others are illegal (R61). -/
def decodeFields (x : CmdFields) : Except IllegalWord Instr :=
  if x.zero ≠ 0 then .error .zeroField
  else
    match x.f, x.u, x.e, x.t, x.d with
    -- checksum class: V = t, K = d
    | false, true, _, _, _ => .error .checksumUnchecked
    | false, false, true, _, _ => .error .checksumEncode
    | false, false, false, false, false => .ok .crc16
    | false, false, false, false, true => .ok .lrc
    | false, false, false, true, false => .ok .vcrc16
    | false, false, false, true, true => .ok .vlrc
    -- framer class
    | true, _, true, _, true => .error .directionOnEncode
    | true, _, false, true, true => .error .directionOnAscii
    | true, false, false, false, false => .ok .prtuReq
    | true, false, false, false, true => .ok .prtuRsp
    | true, false, false, true, false => .ok .pasc
    | true, false, true, false, false => .ok .ertu
    | true, false, true, true, false => .ok .easc
    | true, true, false, false, false => .ok .prtuReqU
    | true, true, false, false, true => .ok .prtuRspU
    | true, true, false, true, false => .ok .pascU
    | true, true, true, false, false => .ok .ertuU
    | true, true, true, true, false => .ok .eascU

/-- Decoding of a command word (R61): total, and every illegal word is rejected by name (R63). -/
def decode (w : Word) : Except IllegalWord Instr := decodeFields (fieldsOfWord w)

/-- The word column of R62. -/
def encode : Instr → Word
  | .crc16 => 0x0000
  | .lrc => 0x0001
  | .vcrc16 => 0x0002
  | .vlrc => 0x0003
  | .prtuReq => 0x0010
  | .prtuRsp => 0x0011
  | .pasc => 0x0012
  | .ertu => 0x0014
  | .easc => 0x0016
  | .prtuReqU => 0x0018
  | .prtuRspU => 0x0019
  | .pascU => 0x001A
  | .ertuU => 0x001C
  | .eascU => 0x001E

/-- The instruction the decoder reads from a word numbered as the opcode table numbers it. A command is one 16-bit word
written to `CMD` whole (R43 (d), R60), so bit 0 of the table is bit 0 of the register and no byte order arises (log 22). -/
def decodeTableWord (nbits w : Nat) : Option Instr :=
  if w < 2 ^ nbits ∧ w < 65536 then (decode (BitVec.ofNat 16 w)).toOption else none

/-- Register numbers (R13). -/
def regNumber : Reg → Nat
  | .cmd => 0
  | .status => 1
  | .inLen => 2
  | .outCap => 3
  | .unit => 4
  | .result => 5
  | .addr => 6
  | .pduOff => 7
  | .pduLen => 8
  | .frameLen => 9
  | .outLen => 10
  | .fault => 11

/-- The register of a number; "register numbers 12 and above do not exist" (R13). -/
def regOfNumber : Nat → Option Reg
  | 0 => some .cmd
  | 1 => some .status
  | 2 => some .inLen
  | 3 => some .outCap
  | 4 => some .unit
  | 5 => some .result
  | 6 => some .addr
  | 7 => some .pduOff
  | 8 => some .pduLen
  | 9 => some .frameLen
  | 10 => some .outLen
  | 11 => some .fault
  | _ => none

/-- The pseudo form `cmd M` of R70: `(RW, 0, word of M)`. -/
def scriptCmd (i : Instr) : HostLine := .action (.setReg 0 (encode i))

/-- The pseudo form `load a, b0 b1 ...` of R70: consecutive `in[..] = ..` actions. -/
def scriptLoad (a : Nat) : List Byte → List HostLine
  | [] => []
  | b :: bs => .action (.setIn a b) :: scriptLoad (a + 1) bs

end Sys2Proof
end

