-- ==== Sys2Proof/Machine/State.lean ====
section
/-! DEFINITION. The state of the block and of its host (R11, R13, R70), why a step can stop, and the state after reset
(R30). -/

namespace Sys2Proof.Machine

/-- A window: its cells that hold a value, by index. A cell that is not listed holds *no value* (R55). Canonical form
(`Memory.wf`): indexes strictly rising. -/
abbrev Memory := List Host.Cell

/-- The host agent's part (R12, R70; the model's own fields, log 3): its script, its position in it, and the values it
has read, newest first (log 7). -/
structure HostState where
  script : List HostLine
  pos : Nat
  replies : List (Source × Word)
deriving DecidableEq, Repr

/-- The whole state: the parameters (log 1), the twelve registers of R13, the two windows (R26, R27), the host. Bits that
do not exist are not stored (log 6): `STATUS[7:0]` (R15), `UNIT[7:0]` (R18), `FAULT[0]` (R24). -/
structure State where
  cfg : Config
  cmd : Word
  status : Byte
  inLen : Word
  outCap : Word
  unit : Byte
  result : Word
  addr : Word
  pduOff : Word
  pduLen : Word
  frameLen : Word
  outLen : Word
  fault : Bool
  inW : Memory
  outW : Memory
  host : HostState
deriving DecidableEq, Repr

/-- The block's faults (R176): a fault is "a terminal outcome distinct from every `STATUS` value" and carries no state,
since "the contents of every other register and of every window cell are unspecified" (log 5). All are safe: the model
stops where the spec defines nothing. -/
inductive Fault where
  /-- Raised by the prologue of every command when a live cell holds no value (R55, R173). Safe. -/
  | valuelessCell
  /-- Raised by an unchecked command whose checked twin would not end with `STATUS` = Ok (R160). Safe. -/
  | uncheckedPrecondition
  /-- Raised by every step but a reset while `FAULT[0]` = 1: "the effect of every later host action except reset is
  unspecified" (R176, U2; log 21). Safe. -/
  | inFaultState
deriving DecidableEq, Repr

/-- Why a step has no meaning. U7: "`refuse`: the model gives such a host action no meaning". -/
inductive Refusal where
  /-- An instruction without a meaning yet, by mnemonic: raised by `exec`'s refused arms only. Safe. -/
  | notModelled (mnemonic : String)
  /-- Raised by a host access to register number 12 or above (R13, U7). Safe. -/
  | noSuchRegister (no : Nat)
  /-- Raised by a host access to an index of IN at or above IN_SIZE (R41, U7). Safe. -/
  | noSuchInCell (a : Nat)
  /-- Raised by a host access to an index of OUT at or above OUT_SIZE (R41, U7). Safe. -/
  | noSuchOutCell (a : Nat)
  /-- Raised by a host read of a cell that holds no value (R55). Safe. -/
  | cellWithoutValue (a : Nat)
  /-- Raised by the host's own `if X == v` when the host has never read X (log 17). Safe. -/
  | neverRead (x : Source)
deriving DecidableEq, Repr

/-- The outcome of a step or of a command. -/
abbrev StepResult := Host.Outcome State Fault Refusal

/-- The error kinds of R170. -/
inductive ErrorKind where
  | bufferTooShort
  | lengthMismatch
  | checksumMismatch
  | invalidHexDigit
  | insufficientCapacity
  | illegalCommand
  | windowOutOfRange
deriving DecidableEq, Repr

/-- The values a `done(...)` names; a result register it does not name is written 0x0000 (R171). -/
structure Results where
  result : Word := 0
  addr : Word := 0
  pduOff : Word := 0
  pduLen : Word := 0
  frameLen : Word := 0
  outLen : Word := 0
deriving DecidableEq, Repr

/-- How the pseudocode of a command ends (R7): `done`, `raise`, or a read of a cell without a value, which the prologue
rules out (R173). -/
inductive Ending where
  | done (r : Results)
  | raise (k : ErrorKind)
  | noValue
deriving DecidableEq, Repr

/-- The state after reset of the instance with parameters `cfg`: "every register of rule R13 holds 0x0000", "every cell
of both windows without a value" (R30, R190); the host has not acted yet (log 3). -/
def State.resetWith (cfg : Config) : State where
  cfg := cfg
  cmd := 0
  status := 0
  inLen := 0
  outCap := 0
  unit := 0
  result := 0
  addr := 0
  pduOff := 0
  pduLen := 0
  frameLen := 0
  outLen := 0
  fault := false
  inW := []
  outW := []
  host := ⟨[], 0, []⟩

/-- The state after reset (R30), for the instance `Config.platform` (log 2). -/
def State.reset : State := State.resetWith Config.platform

end Sys2Proof.Machine
end

