-- ==== Sys2Proof/Machine/Flags.lean ====
section
/-! DEFINITION. What plays the part of flags (R25): the `STATUS` codes (R170) and the verify verdict `RESULT[0]` (R19). -/

namespace Sys2Proof.Machine

/-- `STATUS` = Ok (R170). -/
def statusOk : Byte := 0x00

/-- The `STATUS` code of an error kind (R170). -/
def statusCode : ErrorKind → Byte
  | .bufferTooShort => 0x01
  | .lengthMismatch => 0x02
  | .checksumMismatch => 0x03
  | .invalidHexDigit => 0x04
  | .insufficientCapacity => 0x05
  | .illegalCommand => 0xF0
  | .windowOutOfRange => 0xF1

/-- The codes of R170 that the block produces; "`STATUS` never holds a code not in this table". -/
def statusCodes : List Byte := [0x00, 0x01, 0x02, 0x03, 0x04, 0x05, 0xF0, 0xF1]

/-- The verdict of a verify command: 0x0001 if the trailer verifies, 0x0000 if not (R19). -/
def verdict (ok : Bool) : Word := if ok then 0x0001 else 0x0000

end Sys2Proof.Machine
end

