-- ==== Sys2Proof/Machine/Ops.lean ====
section
/-! DEFINITION. The shared operations: bytes of a word, window cells (R41), register access (R13, R31), how a command
begins (R173) and ends (R171, R172, R176). -/

namespace Sys2Proof.Machine

/-- `v[7:0]` (R7). -/
def lowByte (v : Word) : Byte := v.setWidth 8

/-- `v[15:8]` (R7). -/
def highByte (v : Word) : Byte := (v >>> 8).setWidth 8

/-- `zext_16` (R7). -/
def zext16 (b : Byte) : Word := b.setWidth 16

/-! ### Window cells -/

/-- The canonical form of a window: indexes strictly rising. An unlisted cell holds no value, so no listed cell reads as
an unlisted one. -/
abbrev Memory.wf (m : Memory) : Prop := m.Pairwise fun x y => x.1 < y.1

/-- Every listed cell is one of the window's `size` cells (R40). -/
abbrev Memory.within (size : Nat) (m : Memory) : Prop := ∀ c ∈ m, c.1 < size

/-- `MemRead(W, a, 1)` (R41): the byte of cell `a`, none if the cell holds no value (R55). -/
def Memory.read : Memory → Nat → Option Byte
  | [], _ => none
  | (k, v) :: rest, a => if k = a then some v else Memory.read rest a

/-- `MemWrite(W, a, 1, v)` (R41). "Once written, a cell always holds a value" (R55). -/
def Memory.write : Memory → Nat → Byte → Memory
  | [], a, v => [(a, v)]
  | (k, x) :: rest, a, v =>
    if a < k then (a, v) :: (k, x) :: rest
    else if a = k then (a, v) :: rest
    else (k, x) :: Memory.write rest a v

/-- The bytes `W[a .. a+n)`, none if one of these cells holds no value (R55). -/
def Memory.bytes (m : Memory) (a : Nat) : Nat → Option (List Byte)
  | 0 => some []
  | n + 1 =>
    match m.read a, Memory.bytes m (a + 1) n with
    | some b, some bs => some (b :: bs)
    | _, _ => none

/-- Writes bytes to consecutive cells from index `a`, lowest index first. -/
def Memory.writeBytes (m : Memory) (a : Nat) : List Byte → Memory
  | [] => m
  | b :: bs => Memory.writeBytes (m.write a b) (a + 1) bs

/-! ### Registers -/

/-- `r[REG]`: the whole 16-bit value; bits that do not exist read 0 (R15, R18, R24). -/
def readReg (r : Reg) (s : State) : Word :=
  match r with
  | .cmd => s.cmd
  | .status => zext16 s.status
  | .inLen => s.inLen
  | .outCap => s.outCap
  | .unit => zext16 s.unit
  | .result => s.result
  | .addr => s.addr
  | .pduOff => s.pduOff
  | .pduLen => s.pduLen
  | .frameLen => s.frameLen
  | .outLen => s.outLen
  | .fault => if s.fault then 1 else 0

/-- What a host write of `v` stores (R31): `CMD`, `IN_LEN`, `OUT_CAP` store it unchanged (R14, R16, R17), `UNIT` drops bits
15:8 (R18), and a write to a read-only register is ignored. The command a write to `CMD` starts is not part of this. -/
def storeReg (r : Reg) (v : Word) (s : State) : State :=
  match r with
  | .cmd => { s with cmd := v }
  | .inLen => { s with inLen := v }
  | .outCap => { s with outCap := v }
  | .unit => { s with unit := lowByte v }
  | .status | .result | .addr | .pduOff | .pduLen | .frameLen | .outLen | .fault => s

/-! ### How a command begins and ends -/

/-- A fault (R176): terminal, and no value is given to the state it leaves, `FAULT[0] <- 1` included (log 5). -/
def takeFault (f : Fault) : StepResult := .fault f

/-- `done(...)` (R171): `STATUS <- 0x00` and all six result registers written. -/
def commandDone (r : Results) (s : State) : State :=
  { s with
    status := statusOk, result := r.result, addr := r.addr, pduOff := r.pduOff, pduLen := r.pduLen,
    frameLen := r.frameLen, outLen := r.outLen }

/-- `raise K` (R172): `STATUS <- code of K` and all six result registers 0x0000. "This is all there is of trap entry". -/
def raiseError (k : ErrorKind) (s : State) : State :=
  { s with
    status := statusCode k, result := 0, addr := 0, pduOff := 0, pduLen := 0, frameLen := 0, outLen := 0 }

/-- The end of a checked command, from the state its window writes have left. -/
def endChecked : State × Ending → StepResult
  | (s, .done r) => .next (commandDone r s)
  | (s, .raise k) => .next (raiseError k s)
  | (_, .noValue) => takeFault .valuelessCell

/-- The end of an unchecked command (R160): as the checked twin where that ends with `STATUS` = Ok, else a fault. -/
def endUnchecked : State × Ending → StepResult
  | (s, .done r) => .next (commandDone r s)
  | (_, .raise _) => takeFault .uncheckedPrecondition
  | (_, .noValue) => takeFault .valuelessCell

/-- `IN[0 .. r[IN_LEN])`, the operand of every command (R67); none if a live cell holds no value. -/
def liveData (s : State) : Option (List Byte) := s.inW.bytes 0 s.inLen.toNat

/-- `r[IN_LEN] > IN_SIZE or r[OUT_CAP] > OUT_SIZE` (R173). -/
def outOfRange (s : State) : Bool :=
  decide (s.cfg.inSize < s.inLen.toNat) || decide (s.cfg.outSize < s.outCap.toNat)

/-- The prologue (R173) of a legal command: fault state, window range, live cells, in this order; then the command's own
pseudocode on the live data. (The second check of R173, the illegal word, is the decoder's: `runCommand`.) -/
def prologue (s : State) (body : List Byte → StepResult) : StepResult :=
  if s.fault then takeFault .inFaultState
  else if outOfRange s then .next (raiseError .windowOutOfRange s)
  else
    match liveData s with
    | none => takeFault .valuelessCell
    | some data => body data

/-- An illegal word written to `CMD` (R63, R173): `IllegalCommand`, before any other check but the fault state. -/
def illegalCommand (s : State) : StepResult :=
  if s.fault then takeFault .inFaultState else .next (raiseError .illegalCommand s)

end Sys2Proof.Machine
end

