-- ==== Sys2Proof/Machine/Operands.lean ====
section
/-! DEFINITION. Operands and their assembly from window bytes (R66, R67): indexing, hex digits (R8, R141), and the length
of an RTU frame (R121, R122). -/

namespace Sys2Proof.Machine

/-- `s[i]` of a byte sequence (R7). Every rule bounds its index by the length first, so the default is never read. -/
def byteAt (s : List Byte) (i : Nat) : Byte := s.getD i 0

/-- A length or offset written to a 16-bit register; the rules have bounded it by IN_LEN or OUT_CAP (R109). -/
def lengthWord (n : Nat) : Word := BitVec.ofNat 16 n

/-! ### Characters (R8, R140, R141) -/

/-- `:` -/
def chColon : Byte := 0x3A

/-- CR -/
def chCR : Byte := 0x0D

/-- LF -/
def chLF : Byte := 0x0A

/-- `ishex(b)` (R8): `0`-`9` or `A`-`F`; lowercase is not hex (R141). -/
def isHex (b : Byte) : Bool :=
  (decide (0x30 ≤ b.toNat) && decide (b.toNat ≤ 0x39)) || (decide (0x41 ≤ b.toNat) && decide (b.toNat ≤ 0x46))

/-- `hexval(b)` (R8), for `ishex(b)`. -/
def hexVal (b : Byte) : Nat := if b.toNat ≤ 0x39 then b.toNat - 0x30 else b.toNat - 0x41 + 10

/-- `hexchar(n)` (R8), for 0 ≤ n ≤ 15. -/
def hexChar (n : Nat) : Byte := BitVec.ofNat 8 (if n ≤ 9 then 0x30 + n else 0x41 + n - 10)

/-- A decoded ASCII byte: `16 · hexval(h) + hexval(l)` (R66 (b)). -/
def hexPair (h l : Byte) : Byte := BitVec.ofNat 8 (16 * hexVal h + hexVal l)

/-- The two characters of a byte, high nibble first (R43 (a), R65). -/
def hexChars (b : Byte) : List Byte := [hexChar (b.toNat / 16), hexChar (b.toNat % 16)]

/-! ### The length of an RTU frame (R120 to R122) -/

/-- The shapes of R122, by function code. -/
inductive Shape where
  | exception
  | read
  | writeSingle
  | writeMultiple
  | unknown
deriving DecidableEq, Repr

/-- The shape a function code selects (first column of R122). -/
def shapeOf (fc : Byte) : Shape :=
  if 0x80 ≤ fc.toNat then .exception
  else if fc.toNat = 0x01 ∨ fc.toNat = 0x02 ∨ fc.toNat = 0x03 ∨ fc.toNat = 0x04 then .read
  else if fc.toNat = 0x05 ∨ fc.toNat = 0x06 then .writeSingle
  else if fc.toNat = 0x0F ∨ fc.toNat = 0x10 then .writeMultiple
  else .unknown

/-- `rtu_pdu_len(dir, n)` (R122) on the live bytes `data`, n = |data| ≥ 2: the PDU length, or none for `need_more`. -/
def rtuPduLen (dir : Dir) (data : List Byte) : Option Nat :=
  match shapeOf (byteAt data 1), dir with
  | .exception, _ => some 2
  | .read, .req => some 5
  | .read, .rsp => if data.length < 3 then none else some (2 + (byteAt data 2).toNat)
  | .writeSingle, _ => some 5
  | .writeMultiple, .req => if data.length < 7 then none else some (6 + (byteAt data 6).toNat)
  | .writeMultiple, .rsp => some 5
  | .unknown, _ => if data.length < 4 then none else some (data.length - 3)

end Sys2Proof.Machine
end

