-- ==== Sys2Proof/Machine/Checksum.lean ====
section
/-! DEFINITION. The checksum functions (R101, R103) and the commands `CRC16`, `LRC`, `VCRC16`, `VLRC` (R105 to R108). -/

namespace Sys2Proof.Machine

/-- One of the eight shift steps of R101: `c >> 1`, xor-ed with 0xA001 if the bit shifted out was 1. -/
def crcShift (c : Word) : Word := if c.getLsbD 0 then (c >>> 1) ^^^ 0xA001 else c >>> 1

/-- Eight shift steps (R101, "repeat 8 times"). -/
def crcShift8 (c : Word) : Word :=
  crcShift (crcShift (crcShift (crcShift (crcShift (crcShift (crcShift (crcShift c)))))))

/-- One byte of the loop of R101: the byte is xor-ed into bits 7:0, then eight shift steps. -/
def crcByte (c : Word) (b : Byte) : Word := crcShift8 (c ^^^ zext16 b)

/-- `crc16(s)` (R101): start value 0xFFFF, bytes in sequence order, no final inversion. (The loop is the spec's from
general knowledge, G1; log 10.) -/
def crc16 (s : List Byte) : Word := s.foldl crcByte 0xFFFF

/-- `lrc(s)` (R103): the sum modulo 256, negated in 8-bit two's complement (G2; log 11). -/
def lrc (s : List Byte) : Byte := - s.foldl (· + ·) 0

/-- The verdict of `VCRC16` on `data` (R107): false on fewer than 2 bytes (D14; log 15), else whether the last two bytes
are the CRC16 of the others, low byte first. -/
def verifyCrc16 (data : List Byte) : Bool :=
  let n := data.length
  if n < 2 then false
  else
    let c := crc16 (data.take (n - 2))
    byteAt data (n - 2) == lowByte c && byteAt data (n - 1) == highByte c

/-- The verdict of `VLRC` on `data` (R108): false on no byte (D14; log 15), else whether the last byte is the LRC of the
others. -/
def verifyLrc (data : List Byte) : Bool :=
  let n := data.length
  if n < 1 then false else byteAt data (n - 1) == lrc (data.take (n - 1))

/-- `CRC16` (R105). -/
def execCrc16 (s : State) : StepResult :=
  prologue s fun data => endChecked (s, .done { result := crc16 data })

/-- `LRC` (R106). -/
def execLrc (s : State) : StepResult :=
  prologue s fun data => endChecked (s, .done { result := zext16 (lrc data) })

/-- `VCRC16` (R107). -/
def execVcrc16 (s : State) : StepResult :=
  prologue s fun data => endChecked (s, .done { result := verdict (verifyCrc16 data) })

/-- `VLRC` (R108). -/
def execVlrc (s : State) : StepResult :=
  prologue s fun data => endChecked (s, .done { result := verdict (verifyLrc data) })

end Sys2Proof.Machine
end

