-- ==== Sys2Proof/Machine/Ascii.lean ====
section
/-! DEFINITION. The ASCII framer: `PASC`, `EASC` (R142 to R146) and their unchecked forms (R163, R165). -/

namespace Sys2Proof.Machine

/-- The ASCII frame of R65: `:`, the hex pairs of address, PDU and LRC, CR, LF. -/
def asciiFrame (a : Byte) (pdu : List Byte) : List Byte :=
  let body := a :: pdu
  chColon :: ((body ++ [lrc body]).flatMap hexChars ++ [chCR, chLF])

/-- The loop of R142 and the tests after it, on the bytes from index i = 2m+1 on, where m hex pairs have been passed. It
answers m, or the error of the first offence. At the CR, c = i = 2m+1. -/
def scanPairs : List Byte → Nat → Except ErrorKind Nat
  | [], _ => .error .bufferTooShort
  | [h], _ =>
    if h = chCR then .error .bufferTooShort
    else if isHex h then .error .bufferTooShort
    else .error .invalidHexDigit
  | h :: l :: rest, m =>
    if h = chCR then
      if l ≠ chLF then .error .invalidHexDigit
      else if m < 3 then .error .lengthMismatch
      else .ok m
    else if !isHex h then .error .invalidHexDigit
    else if !isHex l then .error .invalidHexDigit
    else scanPairs rest (m + 1)

/-- `asc_scan(n)` (R142): the number m of hex pairs (the CR stands at index c = 2m+1), or the error kind. -/
def asciiScan : List Byte → Except ErrorKind Nat
  | [] => .error .bufferTooShort
  | first :: rest => if first ≠ chColon then .error .invalidHexDigit else scanPairs rest 0

/-- The decoding loop of R143, R144 from step k on, `count` steps: both characters `IN[1+2k]`, `IN[2+2k]` are read, then
`IN[1+k]` is written. None if a cell holds no value, which the prologue rules out. -/
def decodeInPlace (m : Memory) (k : Nat) : Nat → Option Memory
  | 0 => some m
  | count + 1 =>
    match m.read (1 + 2 * k), m.read (2 + 2 * k) with
    | some h, some l => decodeInPlace (m.write (1 + k) (hexPair h l)) (k + 1) count
    | _, _ => none

/-- `PASC` of R143 after the prologue: the scan writes nothing; then the window is decoded in place, and only then is the
LRC tested (D24; log 14). -/
def parseAscii (s : State) (data : List Byte) : State × Ending :=
  match asciiScan data with
  | .error k => (s, .raise k)
  | .ok m =>
    match decodeInPlace s.inW 0 m with
    | none => (s, .noValue)
    | some w =>
      match w.bytes 1 m with
      | none => (s, .noValue)
      | some decoded =>
        if byteAt decoded (m - 1) ≠ lrc (decoded.take (m - 1)) then
          ({ s with inW := w }, .raise .checksumMismatch)
        else
          ({ s with inW := w },
            .done
              { addr := zext16 (byteAt decoded 0), pduOff := 2, pduLen := lengthWord (m - 2),
                frameLen := lengthWord (2 * m + 3) })

/-- `EASC` of R146 after the prologue: capacity first, so a failure writes nothing; then `OUT[0 .. 2L+7)`. -/
def encodeAscii (s : State) (data : List Byte) : State × Ending :=
  let need := 2 * data.length + 7
  if s.outCap.toNat < need then (s, .raise .insufficientCapacity)
  else
    ({ s with outW := s.outW.writeBytes 0 (asciiFrame s.unit data) }, .done { outLen := lengthWord need })

/-- `PASC` (R143). -/
def execPasc (s : State) : StepResult :=
  prologue s fun data => endChecked (parseAscii s data)

/-- `EASC` (R146). -/
def execEasc (s : State) : StepResult :=
  prologue s fun data => endChecked (encodeAscii s data)

/-- `PASC.U` (R163). -/
def execPascU (s : State) : StepResult :=
  prologue s fun data => endUnchecked (parseAscii s data)

/-- `EASC.U` (R165). -/
def execEascU (s : State) : StepResult :=
  prologue s fun data => endUnchecked (encodeAscii s data)

end Sys2Proof.Machine
end

