-- ==== Sys2Proof/Machine/Rtu.lean ====
section
/-! DEFINITION. The RTU framer: `PRTU.REQ`, `PRTU.RSP`, `ERTU` (R123 to R125) and their unchecked forms (R161, R162,
R164). -/

namespace Sys2Proof.Machine

/-- The RTU frame of R64: address, PDU, CRC16 of both, low byte first. -/
def rtuFrame (a : Byte) (pdu : List Byte) : List Byte :=
  let body := a :: pdu
  body ++ [lowByte (crc16 body), highByte (crc16 body)]

/-- `PRTU(dir)` of R123 after the prologue. -/
def parseRtu (dir : Dir) (data : List Byte) : Ending :=
  if data.length < 2 then .raise .bufferTooShort
  else
    match rtuPduLen dir data with
    | none => .raise .bufferTooShort
    | some len =>
      if data.length < len + 3 then .raise .bufferTooShort
      else
        let c := crc16 (data.take (len + 1))
        if byteAt data (len + 1) ≠ lowByte c ∨ byteAt data (len + 2) ≠ highByte c then .raise .checksumMismatch
        else
          .done
            { addr := zext16 (byteAt data 0), pduOff := 1, pduLen := lengthWord len,
              frameLen := lengthWord (len + 3) }

/-- `ERTU` of R125 after the prologue: capacity first, so a failure writes nothing; then `OUT[0 .. L+3)`. -/
def encodeRtu (s : State) (data : List Byte) : State × Ending :=
  let need := data.length + 3
  if s.outCap.toNat < need then (s, .raise .insufficientCapacity)
  else
    ({ s with outW := s.outW.writeBytes 0 (rtuFrame s.unit data) }, .done { outLen := lengthWord need })

/-- `PRTU.REQ` (R123). -/
def execPrtuReq (s : State) : StepResult :=
  prologue s fun data => endChecked (s, parseRtu .req data)

/-- `PRTU.RSP` (R124). -/
def execPrtuRsp (s : State) : StepResult :=
  prologue s fun data => endChecked (s, parseRtu .rsp data)

/-- `ERTU` (R125). -/
def execErtu (s : State) : StepResult :=
  prologue s fun data => endChecked (encodeRtu s data)

/-- `PRTU.REQ.U` (R161). -/
def execPrtuReqU (s : State) : StepResult :=
  prologue s fun data => endUnchecked (s, parseRtu .req data)

/-- `PRTU.RSP.U` (R162). -/
def execPrtuRspU (s : State) : StepResult :=
  prologue s fun data => endUnchecked (s, parseRtu .rsp data)

/-- `ERTU.U` (R164). -/
def execErtuU (s : State) : StepResult :=
  prologue s fun data => endUnchecked (encodeRtu s data)

end Sys2Proof.Machine
end

