-- ==== Sys2Proof/Machine/Dispatch.lean ====
section
/-! DEFINITION. One arm per command (R62). -/

namespace Sys2Proof.Machine

def exec (i : Instr) (s : State) : Host.Outcome State Fault Refusal :=
  match i with
  | .crc16 => Sys2Proof.Machine.execCrc16 s
  | .lrc => Sys2Proof.Machine.execLrc s
  | .vcrc16 => Sys2Proof.Machine.execVcrc16 s
  | .vlrc => Sys2Proof.Machine.execVlrc s
  | .prtuReq => Sys2Proof.Machine.execPrtuReq s
  | .prtuRsp => Sys2Proof.Machine.execPrtuRsp s
  | .pasc => Sys2Proof.Machine.execPasc s
  | .ertu => Sys2Proof.Machine.execErtu s
  | .easc => Sys2Proof.Machine.execEasc s
  | .prtuReqU => Sys2Proof.Machine.execPrtuReqU s
  | .prtuRspU => Sys2Proof.Machine.execPrtuRspU s
  | .pascU => Sys2Proof.Machine.execPascU s
  | .ertuU => Sys2Proof.Machine.execErtuU s
  | .eascU => Sys2Proof.Machine.execEascU s

end Sys2Proof.Machine
end

