-- ==== Sys2Proof/Machine/HostPort.lean ====
section
/-! DEFINITION. What the host and the platform do to the block: the six host actions (R41, R70) with the access rules of
R13 and R31, the `CMD` trigger (R14, R173), the reset event (R190), and the host's own control flow (R70). -/

namespace Sys2Proof.Machine

/-- The command a word names, run on the state in which the word is already stored in `CMD` (R14, R63, R173). -/
def runCommand (c : Word) (s : State) : StepResult :=
  match decode c with
  | .ok i => exec i s
  | .error _ => illegalCommand s

/-- The host's position moves to the next line (R12). -/
def advance (s : State) : State := { s with host := { s.host with pos := s.host.pos + 1 } }

/-- The host's position moves to line `t`. -/
def jumpTo (t : Nat) (s : State) : State := { s with host := { s.host with pos := t } }

/-- A host read of `x` returns `v` (R70); the block is not changed (R31, R45). The model keeps the value (log 7). -/
def reply (x : Source) (v : Word) (s : State) : State :=
  { s with host := { s.host with replies := (x, v) :: s.host.replies } }

/-- The value the host last read from `x`. -/
def lastRead (x : Source) : List (Source × Word) → Option Word
  | [] => none
  | (y, v) :: rest => if y = x then some v else lastRead x rest

/-- A host action (R70). A write to `CMD` stores the word and runs the command before anything else (R14); a write to
another register only stores (R31); an access that names nothing is refused (R13, R41, U7), and so is a read of a cell
without a value (R55). -/
def hostAction (a : HostAction) (s : State) : StepResult :=
  match a with
  | .setReg no v =>
    match regOfNumber no with
    | none => .refused (.noSuchRegister no)
    | some .cmd => runCommand v (storeReg .cmd v s)
    | some r => .next (storeReg r v s)
  | .getReg no =>
    match regOfNumber no with
    | none => .refused (.noSuchRegister no)
    | some r => .next (reply (.reg no) (readReg r s) s)
  | .setIn a v =>
    if a < s.cfg.inSize then .next { s with inW := s.inW.write a v } else .refused (.noSuchInCell a)
  | .getIn a =>
    if a < s.cfg.inSize then
      match s.inW.read a with
      | none => .refused (.cellWithoutValue a)
      | some b => .next (reply (.inCell a) (zext16 b) s)
    else .refused (.noSuchInCell a)
  | .setOut a v =>
    if a < s.cfg.outSize then .next { s with outW := s.outW.write a v } else .refused (.noSuchOutCell a)
  | .getOut a =>
    if a < s.cfg.outSize then
      match s.outW.read a with
      | none => .refused (.cellWithoutValue a)
      | some b => .next (reply (.outCell a) (zext16 b) s)
    else .refused (.noSuchOutCell a)

/-- The reset event (R190): the block is in the state of R30; the host keeps its script and what it has read (log 18). -/
def blockReset (s : State) : State := { State.resetWith s.cfg with host := s.host }

/-- One line of the host's script, outside the fault state (R70). `halt` ends the run: the position stays (R198, log 4). -/
def hostLine (l : HostLine) (s : State) : StepResult :=
  match l with
  | .action a => hostAction a (advance s)
  | .reset => .next (blockReset (advance s))
  | .ifEq x v t =>
    match lastRead x s.host.replies with
    | none => .refused (.neverRead x)
    | some w => .next (if w = v then jumpTo t s else advance s)
  | .goto t => .next (jumpTo t s)
  | .expect _ _ => .next (advance s)
  | .halt => .next s

/-- The line the host has reached, if its script has not ended. -/
def nextLine (s : State) : Option HostLine := s.host.script[s.host.pos]?

/-- One step: the host's next line. In the fault state only reset has an effect (R176, log 21). When the script has ended
the block waits and nothing changes (R190, R198, log 4). -/
def hostStep (s : State) : StepResult :=
  match nextLine s with
  | some .reset => .next (blockReset (advance s))
  | some l => if s.fault then takeFault .inFaultState else hostLine l s
  | none => if s.fault then takeFault .inFaultState else .next s

/-- `set CMD, c` as the host's whole script: what stands for loading a one-command program (log 3). -/
def commandScript (c : Word) : HostState := ⟨[.action (.setReg 0 c)], 0, []⟩

end Sys2Proof.Machine
end

