-- ==== Sys2Proof/Machine/Step.lean ====
section
/-! DEFINITION. The step: one line of the host's script (R50, R198), a `CMD` write with the whole command it starts. -/

namespace Sys2Proof.Machine

/-- One step of the machine (R50: "every host action and every command is one atomic step"). -/
def step (s : State) : Host.Outcome State Fault Refusal := hostStep s

/-- `s` with the command word `w` where the step takes its next action from: the host's script is `set CMD, w`. The block
fetches nothing (R12, R53), so this stands for the load of a host program (log 3). `_nbits` is 16 for every row. The
host's earlier replies are kept: the fetch does not need to change them. -/
def State.withFetchWord (s : State) (_nbits w : Nat) : State :=
  { s with host := { commandScript (BitVec.ofNat 16 w) with replies := s.host.replies } }

end Sys2Proof.Machine
end

