-- ==== Sys2Proof/Safety.lean ====
section
/-! DEFINITION. The terms claims are stated in: when a command may be started (R191), how a command leaves the registers
(R171, R172), the table of R62, the invariant of the machine, and what a run is. -/

namespace Sys2Proof.Machine

/-- R62: the word and the command, row by row. -/
def commandTable : List (Word × Instr) :=
  [(0x0000, .crc16), (0x0001, .lrc), (0x0002, .vcrc16), (0x0003, .vlrc), (0x0010, .prtuReq), (0x0011, .prtuRsp),
   (0x0012, .pasc), (0x0014, .ertu), (0x0016, .easc), (0x0018, .prtuReqU), (0x0019, .prtuRspU), (0x001A, .pascU),
   (0x001C, .ertuU), (0x001E, .eascU)]

/-- The checked twin of an unchecked command (R160, R166). -/
def checkedTwin : Instr → Option Instr
  | .prtuReqU => some .prtuReq
  | .prtuRspU => some .prtuRsp
  | .pascU => some .pasc
  | .ertuU => some .ertu
  | .eascU => some .easc
  | .crc16 | .lrc | .vcrc16 | .vlrc | .prtuReq | .prtuRsp | .pasc | .ertu | .easc => none

/-- A checked command or a checksum command (R188). -/
def isChecked (i : Instr) : Bool := (checkedTwin i).isNone

/-- The RTU parse command of a direction (R123, R124). -/
def rtuCommand : Dir → Instr
  | .req => .prtuReq
  | .rsp => .prtuRsp

/-- The unchecked RTU parse command of a direction (R161, R162). -/
def rtuCommandU : Dir → Instr
  | .req => .prtuReqU
  | .rsp => .prtuRspU

/-- The range check of R173 passes. -/
abbrev InRange (s : State) : Prop := s.inLen.toNat ≤ s.cfg.inSize ∧ s.outCap.toNat ≤ s.cfg.outSize

/-- Every cell of `IN[0 .. IN_LEN)` holds a value (R55, R173). -/
abbrev AllLive (s : State) : Prop := ∀ a < s.inLen.toNat, s.inW.read a ≠ none

/-- What the host must have set up before a command (R191), so that the prologue passes (R173); `data` are the live bytes. -/
abbrev Ready (s : State) (data : List Byte) : Prop :=
  s.fault = false ∧ InRange s ∧ liveData s = some data

/-- The state `s` with `STATUS` and the six result registers written: all a command writes outside the windows (R171,
R172). -/
def endState (status : Byte) (result addr pduOff pduLen frameLen outLen : Word) (s : State) : State :=
  { s with
    status := status, result := result, addr := addr, pduOff := pduOff, pduLen := pduLen, frameLen := frameLen,
    outLen := outLen }

/-- The state `s` after an error with `STATUS` code `status` (R172). -/
def errorState (status : Byte) (s : State) : State := endState status 0 0 0 0 0 0 s

/-- The six result registers are 0x0000 (R172). -/
abbrev ResultsZero (s : State) : Prop :=
  s.result = 0 ∧ s.addr = 0 ∧ s.pduOff = 0 ∧ s.pduLen = 0 ∧ s.frameLen = 0 ∧ s.outLen = 0

/-- The parameters are allowed (R6); the windows are in canonical form and list only their own cells (R40, R55); `STATUS`
holds a code of R170, and any but Ok goes with six zero results (R172); `ADDR` is a byte (R20); the PDU the results point
at lies inside the frame and begins at 0, 1 or 2 (R21); `FAULT` is 0, a fault being terminal (R176). -/
structure BlockInv (s : State) : Prop where
  cfg : s.cfg.wf = true
  inWf : s.inW.wf
  inWithin : s.inW.within s.cfg.inSize
  outWf : s.outW.wf
  outWithin : s.outW.within s.cfg.outSize
  status : s.status ∈ statusCodes
  errorZero : s.status ≠ statusOk → ResultsZero s
  addrByte : s.addr.toNat < 256
  pduOff : s.pduOff.toNat ≤ 2
  pduInFrame : s.pduOff.toNat + s.pduLen.toNat ≤ s.frameLen.toNat
  noFault : s.fault = false

/-- A run of `k` steps from `s` ends in `t`, with no fault and no refusal on the way (R198). -/
def RunsTo : Nat → State → State → Prop
  | 0, s, t => s = t
  | k + 1, s, t => ∃ u, step s = .next u ∧ RunsTo k u t

end Sys2Proof.Machine
end

