-- ==== Sys2Proof/Certificates/Slice0/Obligations.lean ====
section
/-! DEFINITION. The statements for the provers. Each docstring names the rule of the spec it comes from. -/

open Sys2Proof Sys2Proof.Machine

/-! ### Encoding -/

/-- R62: the decoder reads each of the 14 words as its command and no other word as any, and the encoder is the same
table. -/
def Obligations.CommandTableDecodes : Prop :=
  ∀ (w : Word) (i : Instr),
    (decode w = .ok i ↔ (w, i) ∈ commandTable) ∧ (encode i = w ↔ (w, i) ∈ commandTable)

/-- R61, in arithmetic on the word: legal iff bits 15:5 are zero and either F = 0 and bits 3:2 zero, or F = 1 and (D = 0 or
(E = 0 and T = 0)); and that gives exactly the words of R62. -/
def Obligations.LegalWordsByFieldRule : Prop :=
  ∀ w : Word,
    ((∃ i, decode w = .ok i) ↔
      (w.toNat / 32 = 0 ∧
        ((w.toNat / 16 % 2 = 0 ∧ w.toNat / 4 % 4 = 0) ∨
          (w.toNat / 16 % 2 = 1 ∧ (w.toNat % 2 = 0 ∨ (w.toNat / 4 % 2 = 0 ∧ w.toNat / 2 % 2 = 0)))))) ∧
    ((∃ i, decode w = .ok i) ↔ ∃ i, (w, i) ∈ commandTable)

/-- Words of R62 written out bit by bit (F, U, E, T or V, D or K), one at least of every family, and two illegal ones. -/
def Obligations.WrittenOutWordsDecode : Prop :=
  decodeTableWord 16 0b00000 = some .crc16 ∧ decodeTableWord 16 0b00011 = some .vlrc ∧
  decodeTableWord 16 0b10001 = some .prtuRsp ∧ decodeTableWord 16 0b10010 = some .pasc ∧
  decodeTableWord 16 0b10100 = some .ertu ∧ decodeTableWord 16 0b10110 = some .easc ∧
  decodeTableWord 16 0b11000 = some .prtuReqU ∧ decodeTableWord 16 0b11110 = some .eascU ∧
  decodeTableWord 16 0b10011 = none ∧ decodeTableWord 16 0x0100 = none

/-! ### A step, and the words it does not run -/

/-- R14: outside the fault state, a host write of a word that decodes stores it in `CMD`, and the step is that command's
meaning from there; the host's position moves past the action. -/
def Obligations.StepRunsDecodedCommand : Prop :=
  ∀ (s : State) (c : Word) (i : Instr),
    s.fault = false → nextLine s = some (.action (.setReg 0 c)) → decode c = .ok i →
      step s = exec i { s with cmd := c, host := { s.host with pos := s.host.pos + 1 } }

/-- R63: a word that is not in the table of R62 is stored in `CMD`; the step ends at once with `STATUS` = 0xF0 and zero
results, whatever `IN_LEN`, `OUT_CAP` and the cells hold, and touches neither window. -/
def Obligations.IllegalWordIsReported : Prop :=
  ∀ (s : State) (c : Word),
    s.fault = false → nextLine s = some (.action (.setReg 0 c)) → (∀ i, (c, i) ∉ commandTable) →
      step s = .next (errorState 0xF0 { s with cmd := c, host := { s.host with pos := s.host.pos + 1 } })

/-- The host interface's placing of one command word runs exactly that command at the very next step. -/
def Obligations.PlacedWordRunsNext : Prop :=
  ∀ (s : State) (i : Instr), s.fault = false →
    step (s.withFetchWord 16 (encode i).toNat) =
      exec i { s with cmd := encode i, host := ⟨[.action (.setReg 0 (encode i))], 1, s.host.replies⟩ }

/-! ### Reset and the host's accesses -/

/-- R30: after reset every register reads 0x0000 and every cell of both windows holds no value, for every instance. -/
def Obligations.ResetZeroesRegistersAndEmptiesCells : Prop :=
  ∀ cfg : Config,
    (∀ r : Reg, readReg r (State.resetWith cfg) = 0) ∧
    (∀ a, (State.resetWith cfg).inW.read a = none) ∧ (∀ a, (State.resetWith cfg).outW.read a = none)

/-- R190: reset puts the block into the state of R30 from every state, the fault state included, and it is the only way
out of the fault state: there every step without it stops. -/
def Obligations.ResetIsTheOnlyWayOutOfTheFaultState : Prop :=
  (∀ s : State, nextLine s = some .reset →
    ∃ t, step s = .next t ∧ t = { State.resetWith s.cfg with host := t.host }) ∧
  (∀ s : State, s.fault = true → nextLine s ≠ some .reset → step s = .fault .inFaultState)

/-- R31 with the numbers and widths of R13: a host write to a read-only register (1, 5..11) changes nothing; a host read of
register 0 to 11 returns that register, `STATUS`, `UNIT` and `FAULT` zero-extended, and changes nothing; a host write to `IN_LEN`, `OUT_CAP` or `UNIT` changes only that register. (The position of the host
in its script moves on in each.) -/
def Obligations.HostRegisterAccessRules : Prop :=
  ∀ s : State, s.fault = false →
    (∀ no v, no ∈ [1, 5, 6, 7, 8, 9, 10, 11] → nextLine s = some (.action (.setReg no v)) →
      step s = .next { s with host := { s.host with pos := s.host.pos + 1 } }) ∧
    (∀ (no : Nat) (v : Word),
      (no, v) ∈ [(0, s.cmd), (1, s.status.setWidth 16), (2, s.inLen), (3, s.outCap), (4, s.unit.setWidth 16),
        (5, s.result), (6, s.addr), (7, s.pduOff), (8, s.pduLen), (9, s.frameLen), (10, s.outLen),
        (11, (BitVec.ofBool s.fault).setWidth 16)] →
      nextLine s = some (.action (.getReg no)) →
      step s = .next { s with host := ⟨s.host.script, s.host.pos + 1, (.reg no, v) :: s.host.replies⟩ }) ∧
    (∀ v, nextLine s = some (.action (.setReg 2 v)) →
      step s = .next { s with inLen := v, host := { s.host with pos := s.host.pos + 1 } }) ∧
    (∀ v, nextLine s = some (.action (.setReg 3 v)) →
      step s = .next { s with outCap := v, host := { s.host with pos := s.host.pos + 1 } }) ∧
    (∀ v, nextLine s = some (.action (.setReg 4 v)) →
      step s = .next { s with unit := v.extractLsb' 0 8, host := { s.host with pos := s.host.pos + 1 } })

/-- R18: what a read of `UNIT` right after the host wrote `v` returns: bits 15:8 are dropped. -/
def Obligations.UnitDropsItsHighBits : Prop :=
  ∀ (s : State) (v : Word), s.fault = false → nextLine s = some (.action (.setReg 4 v)) →
    s.host.script[s.host.pos + 1]? = some (.action (.getReg 4)) →
      ∃ t u w, step s = .next t ∧ step t = .next u ∧ u.host.replies = (.reg 4, w) :: s.host.replies ∧
        w.toNat = v.toNat % 256

/-- R13, U7: a host access to a register number of 12 or above is refused. -/
def Obligations.AbsentRegistersAreRefused : Prop :=
  ∀ (s : State) (no : Nat), s.fault = false → 12 ≤ no →
    (∀ v, nextLine s = some (.action (.setReg no v)) → step s = .refused (.noSuchRegister no)) ∧
    (nextLine s = some (.action (.getReg no)) → step s = .refused (.noSuchRegister no))

/-- R40, R41: a host write to a cell of a window changes that cell of that window and nothing else; beyond the window's
size it is refused (U7). -/
def Obligations.HostWindowWrites : Prop :=
  ∀ (s : State) (a : Nat) (v : Byte), s.fault = false →
    (nextLine s = some (.action (.setIn a v)) →
      (a < s.cfg.inSize → ∃ t, step s = .next t ∧
        t = { s with inW := t.inW, host := { s.host with pos := s.host.pos + 1 } } ∧
        ∀ b, t.inW.read b = if b = a then some v else s.inW.read b) ∧
      (s.cfg.inSize ≤ a → step s = .refused (.noSuchInCell a))) ∧
    (nextLine s = some (.action (.setOut a v)) →
      (a < s.cfg.outSize → ∃ t, step s = .next t ∧
        t = { s with outW := t.outW, host := { s.host with pos := s.host.pos + 1 } } ∧
        ∀ b, t.outW.read b = if b = a then some v else s.outW.read b) ∧
      (s.cfg.outSize ≤ a → step s = .refused (.noSuchOutCell a)))

/-- R41, R45, R55: a host read of a cell returns its byte and changes nothing; a read of a cell without a value, or beyond
the window's size, is refused. -/
def Obligations.HostWindowReads : Prop :=
  ∀ (s : State) (a : Nat), s.fault = false →
    (nextLine s = some (.action (.getIn a)) →
      (∀ b, a < s.cfg.inSize → s.inW.read a = some b →
        step s = .next { s with
          host := ⟨s.host.script, s.host.pos + 1, (.inCell a, b.setWidth 16) :: s.host.replies⟩ }) ∧
      (a < s.cfg.inSize → s.inW.read a = none → step s = .refused (.cellWithoutValue a)) ∧
      (s.cfg.inSize ≤ a → step s = .refused (.noSuchInCell a))) ∧
    (nextLine s = some (.action (.getOut a)) →
      (∀ b, a < s.cfg.outSize → s.outW.read a = some b →
        step s = .next { s with
          host := ⟨s.host.script, s.host.pos + 1, (.outCell a, b.setWidth 16) :: s.host.replies⟩ }) ∧
      (a < s.cfg.outSize → s.outW.read a = none → step s = .refused (.cellWithoutValue a)) ∧
      (s.cfg.outSize ≤ a → step s = .refused (.noSuchOutCell a)))

/-- R70: the host's own control flow moves the host's position and leaves the block alone. (That a run past the script's
end, or at `halt`, waits is the model's reading, log 4; that `if` on a value never read is refused is its choice, log 17.) -/
def Obligations.HostControlFlow : Prop :=
  ∀ s : State, s.fault = false →
    (∀ t, nextLine s = some (.goto t) → step s = .next { s with host := { s.host with pos := t } }) ∧
    (∀ x v t w, nextLine s = some (.ifEq x v t) → lastRead x s.host.replies = some w →
      step s = .next { s with host := { s.host with pos := if w = v then t else s.host.pos + 1 } }) ∧
    (∀ x v t, nextLine s = some (.ifEq x v t) → lastRead x s.host.replies = none → step s = .refused (.neverRead x)) ∧
    (∀ x v, nextLine s = some (.expect x v) →
      step s = .next { s with host := { s.host with pos := s.host.pos + 1 } }) ∧
    (nextLine s = some .halt ∨ nextLine s = none → step s = .next s)

/-! ### How every command begins and ends -/

/-- R173: the prologue of a `CMD` write, in its order: fault state, illegal word, window range, cell without a value. -/
def Obligations.PrologueInItsOrder : Prop :=
  ∀ (s : State) (c : Word),
    (s.fault = true → runCommand c s = .fault .inFaultState) ∧
    (s.fault = false → (∀ i, (c, i) ∉ commandTable) → runCommand c s = .next (errorState 0xF0 s)) ∧
    (∀ i, s.fault = false → (c, i) ∈ commandTable → ¬ InRange s → runCommand c s = .next (errorState 0xF1 s)) ∧
    (∀ i, s.fault = false → (c, i) ∈ commandTable → InRange s → ¬ AllLive s →
      runCommand c s = .fault .valuelessCell)

/-- R171, R172 and the frame of every command: a command that ends writes `STATUS`, a code of R170, the six result
registers and its window cells, and nothing else; an error leaves the six at zero and OUT unchanged, and IN too unless
`PASC` ends in `ChecksumMismatch`. -/
def Obligations.CommandsWriteOnlyStatusResultsAndWindows : Prop :=
  ∀ (i : Instr) (s t : State), exec i s = .next t →
    t = { s with
          status := t.status, result := t.result, addr := t.addr, pduOff := t.pduOff, pduLen := t.pduLen,
          frameLen := t.frameLen, outLen := t.outLen, inW := t.inW, outW := t.outW } ∧
    t.status ∈ statusCodes ∧
    (t.status ≠ 0x00 → ResultsZero t ∧ t.outW = s.outW ∧ (t.inW = s.inW ∨ (i = .pasc ∧ t.status = 0x03)))

/-- R19 to R23: a result register a command does not produce is 0x0000 after it. -/
def Obligations.UnproducedResultsAreZero : Prop :=
  ∀ (i : Instr) (s t : State), exec i s = .next t →
    (i ∉ [.crc16, .lrc, .vcrc16, .vlrc] → t.result = 0) ∧
    (i ∉ [.prtuReq, .prtuRsp, .pasc, .prtuReqU, .prtuRspU, .pascU] →
      t.addr = 0 ∧ t.pduOff = 0 ∧ t.pduLen = 0 ∧ t.frameLen = 0) ∧
    (i ∉ [.ertu, .easc, .ertuU, .eascU] → t.outLen = 0)

/-- R47: which cells a command may write; every other cell reads as before. `PASC` writes `IN[1 .. m+1)` where m is the
number of decoded bytes, and only when the scan succeeds. -/
def Obligations.WindowCellsOutsideTheTableAreUnchanged : Prop :=
  ∀ (i : Instr) (s t : State) (data : List Byte), Ready s data → exec i s = .next t →
    (i ∈ [.crc16, .lrc, .vcrc16, .vlrc, .prtuReq, .prtuRsp, .prtuReqU, .prtuRspU] →
      t.inW = s.inW ∧ t.outW = s.outW) ∧
    (i ∈ [.ertu, .ertuU] → t.inW = s.inW ∧ (t.status ≠ 0x00 → t.outW = s.outW) ∧
      ∀ a, s.inLen.toNat + 3 ≤ a → t.outW.read a = s.outW.read a) ∧
    (i ∈ [.easc, .eascU] → t.inW = s.inW ∧ (t.status ≠ 0x00 → t.outW = s.outW) ∧
      ∀ a, 2 * s.inLen.toNat + 7 ≤ a → t.outW.read a = s.outW.read a) ∧
    (i ∈ [.pasc, .pascU] → t.outW = s.outW ∧
      (∀ k, asciiScan data = .error k → t.inW = s.inW) ∧
      (∀ m, asciiScan data = .ok m → ∀ a, a = 0 ∨ m + 1 ≤ a → t.inW.read a = s.inW.read a))

/-- R28: the outcome of a command is a function of the command, `IN_LEN`, `OUT_CAP`, `UNIT`, the live cells, and the
previous contents of the cells it leaves unchanged; `STATUS`, the result registers and cells beyond `IN_LEN` do not
matter. -/
def Obligations.OutcomeDependsOnlyOnOperands : Prop :=
  ∀ (i : Instr) (s s' : State),
    s.cfg = s'.cfg → s.fault = s'.fault → s.inLen = s'.inLen → s.outCap = s'.outCap → s.unit = s'.unit →
    (∀ a < s.inLen.toNat, s.inW.read a = s'.inW.read a) →
    (∀ f, exec i s = .fault f ↔ exec i s' = .fault f) ∧
    (∀ t, exec i s = .next t → ∃ t', exec i s' = .next t' ∧
      t.status = t'.status ∧ t.result = t'.result ∧ t.addr = t'.addr ∧ t.pduOff = t'.pduOff ∧
      t.pduLen = t'.pduLen ∧ t.frameLen = t'.frameLen ∧ t.outLen = t'.outLen ∧
      (∀ a, t.inW.read a = t'.inW.read a ∨ (t.inW.read a = s.inW.read a ∧ t'.inW.read a = s'.inW.read a)) ∧
      (∀ a, t.outW.read a = t'.outW.read a ∨ (t.outW.read a = s.outW.read a ∧ t'.outW.read a = s'.outW.read a)))

/-- R21 to R23: after a successful parse the PDU lies inside the frame, the frame inside the live window, and every byte
of the PDU has a value; after a successful encode the bytes reported lie inside the offered capacity. -/
def Obligations.ResultsPointIntoTheWindows : Prop :=
  ∀ (i : Instr) (s t : State), exec i s = .next t → t.status = 0x00 →
    (i ∈ [.prtuReq, .prtuRsp, .pasc, .prtuReqU, .prtuRspU, .pascU] →
      1 ≤ t.pduLen.toNat ∧ t.pduOff.toNat + t.pduLen.toNat ≤ t.frameLen.toNat ∧
      t.frameLen.toNat ≤ t.inLen.toNat ∧
      ∀ k < t.pduLen.toNat, t.inW.read (t.pduOff.toNat + k) ≠ none) ∧
    (i ∈ [.ertu, .easc, .ertuU, .eascU] →
      t.outLen.toNat ≤ t.outCap.toNat ∧ ∀ k < t.outLen.toNat, t.outW.read k ≠ none)

/-! ### Faults and refusals -/

/-- R176 ("exactly two situations") with R160 and R173: outside the fault state a step faults exactly when it starts a
legal command in range and a live cell holds no value, or the command is unchecked and its checked twin, started in the
same state, would end with another `STATUS` than Ok. -/
def Obligations.FaultsInExactlyTwoSituations : Prop :=
  ∀ s : State, s.fault = false →
    ((∃ f, step s = .fault f) ↔
      ∃ c i, nextLine s = some (.action (.setReg 0 c)) ∧ (c, i) ∈ commandTable ∧ InRange s ∧
        (¬ AllLive s ∨
          ∃ j t, checkedTwin i = some j ∧
            exec j { s with cmd := c, host := { s.host with pos := s.host.pos + 1 } } = .next t ∧ t.status ≠ 0x00))

/-- R188: outside the fault state, with a value in every live cell, a write of any word that is not an unchecked command
ends without a fault, with a `STATUS` of R170. -/
def Obligations.CheckedCommandsNeverFault : Prop :=
  ∀ (s : State) (c : Word), s.fault = false → nextLine s = some (.action (.setReg 0 c)) → AllLive s →
    (∀ i, decode c = .ok i → isChecked i = true) →
      ∃ t, step s = .next t ∧ t.status ∈ statusCodes

/-- U7, R41, R55: a step is refused only for a host access that names no register or cell, a host read of a cell without
a value, or the host's `if` on a value it has never read: never for a command. -/
def Obligations.OnlyHostAccessesAreRefused : Prop :=
  ∀ (s : State) (r : Refusal), step s = .refused r →
    (∃ no, 12 ≤ no ∧ r = .noSuchRegister no ∧
      (nextLine s = some (.action (.getReg no)) ∨ ∃ v, nextLine s = some (.action (.setReg no v)))) ∨
    (∃ a, s.cfg.inSize ≤ a ∧ r = .noSuchInCell a ∧
      (nextLine s = some (.action (.getIn a)) ∨ ∃ v, nextLine s = some (.action (.setIn a v)))) ∨
    (∃ a, s.cfg.outSize ≤ a ∧ r = .noSuchOutCell a ∧
      (nextLine s = some (.action (.getOut a)) ∨ ∃ v, nextLine s = some (.action (.setOut a v)))) ∨
    (∃ a, r = .cellWithoutValue a ∧
      ((nextLine s = some (.action (.getIn a)) ∧ s.inW.read a = none) ∨
        (nextLine s = some (.action (.getOut a)) ∧ s.outW.read a = none))) ∨
    (∃ x v t, r = .neverRead x ∧ nextLine s = some (.ifEq x v t) ∧ lastRead x s.host.replies = none)

/-! ### The invariant -/

/-- The reset state of every allowed instance meets the invariant. -/
def Obligations.ResetMeetsTheInvariant : Prop :=
  (∀ cfg : Config, cfg.wf = true → BlockInv (State.resetWith cfg)) ∧ BlockInv State.reset

/-- Every step keeps the invariant, from every state that meets it, and never changes the parameters. -/
def Obligations.StepKeepsTheInvariant : Prop :=
  ∀ s t : State, BlockInv s → step s = .next t → BlockInv t ∧ t.cfg = s.cfg

/-! ### Checksums -/

/-- R101, on natural numbers: the value starts at 0xFFFF, and each byte is xor-ed in and followed by eight steps, halving
the value and xor-ing 0xA001 if the bit shifted out was 1. -/
def Obligations.Crc16FollowsTheBitLoop : Prop :=
  (crc16 []).toNat = 0xFFFF ∧
  ∀ (s : List Byte) (b : Byte),
    (crc16 (s ++ [b])).toNat =
      (fun c : Nat => if c % 2 = 1 then (c / 2) ^^^ 0xA001 else c / 2)^[8] ((crc16 s).toNat ^^^ b.toNat)

/-- R102 (b), (c): the residue law, and the verdict of `VCRC16` on two bytes or more is 1 exactly when the CRC16 of all of
them is 0. -/
def Obligations.Crc16ResidueLaws : Prop :=
  (∀ s : List Byte, crc16 (s ++ [(crc16 s).extractLsb' 0 8, (crc16 s).extractLsb' 8 8]) = 0) ∧
  (∀ (s : State) (data : List Byte), Ready s data → 2 ≤ data.length →
    ∃ t, exec .vcrc16 s = .next t ∧ (t.result = 1 ↔ crc16 data = 0))

/-- R102 (a), (d), (e): values. -/
def Obligations.Crc16KnownValues : Prop :=
  crc16 [] = 0xFFFF ∧ crc16 [0x00] = 0x40BF ∧ crc16 [0x01] = 0x807E ∧ crc16 [0xFF] = 0x00FF ∧
  crc16 [0x31, 0x32, 0x33, 0x34, 0x35, 0x36, 0x37, 0x38, 0x39] = 0x4B37

/-- R103, on natural numbers: (256 − sum mod 256) mod 256. -/
def Obligations.LrcIsTheNegatedSum : Prop :=
  ∀ s : List Byte, (lrc s).toNat = (256 - (s.map BitVec.toNat).sum % 256) % 256

/-- R104: the laws of `lrc`. -/
def Obligations.LrcLaws : Prop :=
  lrc [] = 0x00 ∧
  (∀ s : List Byte, ((s.map BitVec.toNat).sum + (lrc s).toNat) % 256 = 0) ∧
  (∀ (s : State) (data : List Byte), Ready s data → 1 ≤ data.length →
    ∃ t, exec .vlrc s = .next t ∧ (t.result = 1 ↔ (data.map BitVec.toNat).sum % 256 = 0)) ∧
  (∀ s s' : List Byte, s.Perm s' → lrc s = lrc s') ∧
  lrc [0x80, 0x80] = 0x00 ∧ lrc [0xFF] = 0x01 ∧ lrc [0x01] = 0xFF

/-- R105: `CRC16`. -/
def Obligations.Crc16CommandResult : Prop :=
  (∀ (s : State) (data : List Byte), Ready s data →
    exec .crc16 s = .next (endState 0x00 (crc16 data) 0 0 0 0 0 s)) ∧
  (∀ s t : State, exec .crc16 s = .next t → t.status = 0x00 ∨ (t.status = 0xF1 ∧ ¬ InRange s))

/-- R106: `LRC`; bits 15:8 of `RESULT` are 0. -/
def Obligations.LrcCommandResult : Prop :=
  (∀ (s : State) (data : List Byte), Ready s data →
    exec .lrc s = .next (endState 0x00 ((lrc data).setWidth 16) 0 0 0 0 0 s)) ∧
  (∀ s t : State, exec .lrc s = .next t → t.status = 0x00 ∨ (t.status = 0xF1 ∧ ¬ InRange s))

/-- R107: `VCRC16` answers 1 exactly when the live bytes are some bytes followed by their CRC16, low byte first; `STATUS`
is Ok either way. -/
def Obligations.Vcrc16CommandResult : Prop :=
  (∀ (s : State) (data : List Byte), Ready s data →
    ((∃ d, data = d ++ [(crc16 d).extractLsb' 0 8, (crc16 d).extractLsb' 8 8]) →
      exec .vcrc16 s = .next (endState 0x00 1 0 0 0 0 0 s)) ∧
    ((¬ ∃ d, data = d ++ [(crc16 d).extractLsb' 0 8, (crc16 d).extractLsb' 8 8]) →
      exec .vcrc16 s = .next (endState 0x00 0 0 0 0 0 0 s))) ∧
  (∀ s t : State, exec .vcrc16 s = .next t → t.status = 0x00 ∨ (t.status = 0xF1 ∧ ¬ InRange s))

/-- R108: `VLRC` answers 1 exactly when the live bytes are some bytes followed by their LRC; `STATUS` is Ok either way. -/
def Obligations.VlrcCommandResult : Prop :=
  (∀ (s : State) (data : List Byte), Ready s data →
    ((∃ d, data = d ++ [lrc d]) → exec .vlrc s = .next (endState 0x00 1 0 0 0 0 0 s)) ∧
    ((¬ ∃ d, data = d ++ [lrc d]) → exec .vlrc s = .next (endState 0x00 0 0 0 0 0 0 s))) ∧
  (∀ s t : State, exec .vlrc s = .next t → t.status = 0x00 ∨ (t.status = 0xF1 ∧ ¬ InRange s))

/-! ### RTU frames -/

/-- R122: the PDU length by function code and direction. -/
def Obligations.RtuPduLengthTable : Prop :=
  ∀ data : List Byte, 2 ≤ data.length → ∀ fc, fc = (data.getD 1 0).toNat →
    (0x80 ≤ fc → ∀ dir, rtuPduLen dir data = some 2) ∧
    (fc ∈ [0x01, 0x02, 0x03, 0x04] → rtuPduLen .req data = some 5 ∧
      (data.length < 3 → rtuPduLen .rsp data = none) ∧
      (3 ≤ data.length → rtuPduLen .rsp data = some (2 + (data.getD 2 0).toNat))) ∧
    (fc ∈ [0x05, 0x06] → ∀ dir, rtuPduLen dir data = some 5) ∧
    (fc ∈ [0x0F, 0x10] → rtuPduLen .rsp data = some 5 ∧
      (data.length < 7 → rtuPduLen .req data = none) ∧
      (7 ≤ data.length → rtuPduLen .req data = some (6 + (data.getD 6 0).toNat))) ∧
    (fc < 0x80 → fc ∉ [0x01, 0x02, 0x03, 0x04, 0x05, 0x06, 0x0F, 0x10] → ∀ dir,
      (data.length < 4 → rtuPduLen dir data = none) ∧
      (4 ≤ data.length → rtuPduLen dir data = some (data.length - 3)))

/-- R123, R124: the three ends of `PRTU.REQ` and `PRTU.RSP`, in their order. The windows are unchanged in each. -/
def Obligations.PrtuCommandResult : Prop :=
  ∀ (dir : Dir) (s : State) (data : List Byte), Ready s data →
    (data.length < 2 ∨ rtuPduLen dir data = none ∨ (∃ len, rtuPduLen dir data = some len ∧ data.length < len + 3) →
      exec (rtuCommand dir) s = .next (errorState 0x01 s)) ∧
    (∀ len, 2 ≤ data.length → rtuPduLen dir data = some len → len + 3 ≤ data.length →
      (data[len + 1]? = some ((crc16 (data.take (len + 1))).extractLsb' 0 8) ∧
          data[len + 2]? = some ((crc16 (data.take (len + 1))).extractLsb' 8 8) →
        exec (rtuCommand dir) s =
          .next (endState 0x00 0 ((data.getD 0 0).setWidth 16) 1 (BitVec.ofNat 16 len) (BitVec.ofNat 16 (len + 3)) 0 s)) ∧
      (¬ (data[len + 1]? = some ((crc16 (data.take (len + 1))).extractLsb' 0 8) ∧
          data[len + 2]? = some ((crc16 (data.take (len + 1))).extractLsb' 8 8)) →
        exec (rtuCommand dir) s = .next (errorState 0x03 s)))

/-- R125, R64: `ERTU` writes address, PDU and CRC16, low byte first, to `OUT[0 .. L+3)` and leaves every other cell; with
less capacity it writes nothing. -/
def Obligations.ErtuCommandResult : Prop :=
  (∀ (s : State) (data : List Byte), Ready s data →
    (s.outCap.toNat < data.length + 3 → exec .ertu s = .next (errorState 0x05 s)) ∧
    (data.length + 3 ≤ s.outCap.toNat → ∃ w : Memory,
      exec .ertu s = .next (endState 0x00 0 0 0 0 0 (BitVec.ofNat 16 (data.length + 3)) { s with outW := w }) ∧
      w.read 0 = some s.unit ∧ (∀ k < data.length, w.read (1 + k) = data[k]?) ∧
      w.read (data.length + 1) = some ((crc16 (s.unit :: data)).extractLsb' 0 8) ∧
      w.read (data.length + 2) = some ((crc16 (s.unit :: data)).extractLsb' 8 8) ∧
      ∀ a, data.length + 3 ≤ a → w.read a = s.outW.read a)) ∧
  (∀ s t : State, exec .ertu s = .next t → t.status ∈ [0x00, 0x05, 0xF1])

/-- R126 (a): a frame `ERTU` wrote, put into IN, parses back to its address and PDU, if R122 gives it its own length; and
R122 does so for every PDU of one byte or more whose function code is not in its table. -/
def Obligations.RtuEncodeThenParse : Prop :=
  ∀ (dir : Dir) (s t u : State) (pdu frame : List Byte),
    Ready s pdu → exec .ertu s = .next t → t.status = 0x00 →
    t.outW.bytes 0 (pdu.length + 3) = some frame → Ready u frame →
    (rtuPduLen dir frame = some pdu.length →
      exec (rtuCommand dir) u =
        .next (endState 0x00 0 (s.unit.setWidth 16) 1 (BitVec.ofNat 16 pdu.length)
          (BitVec.ofNat 16 (pdu.length + 3)) 0 u) ∧
      ∀ k < pdu.length, u.inW.read (1 + k) = pdu[k]?) ∧
    (∀ fc, pdu[0]? = some fc → fc.toNat < 0x80 →
      fc.toNat ∉ [0x01, 0x02, 0x03, 0x04, 0x05, 0x06, 0x0F, 0x10] → rtuPduLen dir frame = some pdu.length)

/-- R126 (b): the PDU and address a parse found, encoded again, give exactly the bytes of the frame. -/
def Obligations.RtuParseThenEncode : Prop :=
  ∀ (dir : Dir) (s t u : State) (data : List Byte),
    Ready s data → exec (rtuCommand dir) s = .next t → t.status = 0x00 →
    Ready u ((data.drop 1).take t.pduLen.toNat) → u.unit.setWidth 16 = t.addr → t.frameLen.toNat ≤ u.outCap.toNat →
      ∃ v, exec .ertu u = .next v ∧ v.status = 0x00 ∧ v.outLen = t.frameLen ∧
        v.outW.bytes 0 t.frameLen.toNat = some (data.take t.frameLen.toNat)

/-- R126 (c), first sentence: a parsable frame with its trailer changed, the bytes before it as they were, ends in
`ChecksumMismatch`. -/
def Obligations.RtuCorruptTrailerIsRejected : Prop :=
  ∀ (dir : Dir) (s t u : State) (data data' : List Byte),
    Ready s data → exec (rtuCommand dir) s = .next t → t.status = 0x00 → Ready u data' →
    data'.length = data.length → data'.take (t.pduLen.toNat + 1) = data.take (t.pduLen.toNat + 1) →
    data'.take (t.pduLen.toNat + 3) ≠ data.take (t.pduLen.toNat + 3) →
      exec (rtuCommand dir) u = .next (errorState 0x03 u)

/-- The short-prefix property (D0 §8, L1-4) for function codes of the table of R122: a strict prefix of a parsable frame
ends in `BufferTooShort`. -/
def Obligations.RtuStrictPrefixNeedsMoreBytes : Prop :=
  ∀ (dir : Dir) (s t u : State) (data : List Byte) (k : Nat),
    Ready s data → exec (rtuCommand dir) s = .next t → t.status = 0x00 →
    ((data.getD 1 0).toNat ∈ [0x01, 0x02, 0x03, 0x04, 0x05, 0x06, 0x0F, 0x10] ∨ 0x80 ≤ (data.getD 1 0).toNat) →
    k < t.frameLen.toNat → Ready u (data.take k) →
      exec (rtuCommand dir) u = .next (errorState 0x01 u)

/-- R175 for the RTU parser: bytes appended after the live window change neither success nor `ChecksumMismatch`, for
function codes of the table of R122. -/
def Obligations.RtuVerdictStandsWhenBytesAreAppended : Prop :=
  ∀ (dir : Dir) (s t u : State) (data more : List Byte),
    Ready s data → exec (rtuCommand dir) s = .next t → t.status ≠ 0x01 →
    ((data.getD 1 0).toNat ∈ [0x01, 0x02, 0x03, 0x04, 0x05, 0x06, 0x0F, 0x10] ∨ 0x80 ≤ (data.getD 1 0).toNat) →
    Ready u (data ++ more) →
      exec (rtuCommand dir) u = .next (endState t.status t.result t.addr t.pduOff t.pduLen t.frameLen t.outLen u)

/-- R195 (b): a frame of a function code outside the table of R122 is the whole live window, and zero bytes appended to it
are accepted as part of the frame. -/
def Obligations.RtuUnknownFunctionTakesTrailingZeros : Prop :=
  ∀ (dir : Dir) (s t u : State) (data : List Byte) (k : Nat),
    Ready s data → exec (rtuCommand dir) s = .next t → t.status = 0x00 → (data.getD 1 0).toNat < 0x80 →
    (data.getD 1 0).toNat ∉ [0x01, 0x02, 0x03, 0x04, 0x05, 0x06, 0x0F, 0x10] →
    Ready u (data ++ List.replicate k 0) →
      t.frameLen = s.inLen ∧
      exec (rtuCommand dir) u =
        .next (endState 0x00 0 t.addr 1 (BitVec.ofNat 16 (t.pduLen.toNat + k)) (BitVec.ofNat 16 (t.frameLen.toNat + k)) 0 u)

/-! ### ASCII frames -/

/-- R141, R8: the sixteen hex digits, lowercase not among them, and the two conversions. -/
def Obligations.HexDigitsAreUppercase : Prop :=
  (∀ b : Byte, isHex b = true ↔
    b ∈ [0x30, 0x31, 0x32, 0x33, 0x34, 0x35, 0x36, 0x37, 0x38, 0x39, 0x41, 0x42, 0x43, 0x44, 0x45, 0x46]) ∧
  (∀ n < 16, isHex (hexChar n) = true ∧ hexVal (hexChar n) = n) ∧
  (∀ b : Byte, isHex b = true → hexVal b < 16 ∧ hexChar (hexVal b) = b)

/-- R142: the scan accepts exactly the frames of R65's shape with three decoded bytes or more: `:`, 2m hex digits, CR, LF. -/
def Obligations.AsciiScanAcceptsExactlyFrames : Prop :=
  ∀ (data : List Byte) (m : Nat), asciiScan data = .ok m ↔
    3 ≤ m ∧ data[0]? = some 0x3A ∧
    (∀ j, 1 ≤ j → j ≤ 2 * m → ∃ b, data[j]? = some b ∧ isHex b = true) ∧
    data[2 * m + 1]? = some 0x0D ∧ data[2 * m + 2]? = some 0x0A

/-- R142 (and R174): which error the scan reports when it accepts no frame: it is the first offence from the left. After
`:` and n hex pairs, `InvalidHexDigit` for a byte that is neither a hex digit nor CR where a pair begins, for any byte but a
hex digit in the low-nibble place, and for CR without LF; also for a first byte other than `:`. `LengthMismatch` for CR, LF
after fewer than three pairs. `BufferTooShort` where the bytes end first. -/
def Obligations.AsciiScanReportsTheFirstOffence : Prop :=
  ∀ data : List Byte,
    (asciiScan data = .error .invalidHexDigit ↔
      (∃ b, data[0]? = some b ∧ b ≠ 0x3A) ∨
      (data[0]? = some 0x3A ∧ ∃ n : Nat,
        (∀ j, 1 ≤ j → j ≤ 2 * n → ∃ b, data[j]? = some b ∧ isHex b = true) ∧
        ((∃ b, data[2 * n + 1]? = some b ∧ b ≠ 0x0D ∧ isHex b = false) ∨
          (∃ h l, data[2 * n + 1]? = some h ∧ isHex h = true ∧ data[2 * n + 2]? = some l ∧ isHex l = false) ∨
          (∃ b, data[2 * n + 1]? = some 0x0D ∧ data[2 * n + 2]? = some b ∧ b ≠ 0x0A)))) ∧
    (asciiScan data = .error .lengthMismatch ↔
      data[0]? = some 0x3A ∧ ∃ m < 3,
        (∀ j, 1 ≤ j → j ≤ 2 * m → ∃ b, data[j]? = some b ∧ isHex b = true) ∧
        data[2 * m + 1]? = some 0x0D ∧ data[2 * m + 2]? = some 0x0A) ∧
    (asciiScan data = .error .bufferTooShort ↔
      data = [] ∨
      (data[0]? = some 0x3A ∧
        ((∀ j b, 1 ≤ j → data[j]? = some b → isHex b = true) ∨
          ∃ n : Nat, (∀ j, 1 ≤ j → j ≤ 2 * n → ∃ b, data[j]? = some b ∧ isHex b = true) ∧
            data[2 * n + 1]? = some 0x0D ∧ data.length = 2 * n + 2)))

/-- R143: when the scan reports an error `PASC` ends with its code and changes no cell. -/
def Obligations.PascScanErrorsLeaveTheWindow : Prop :=
  ∀ (s : State) (data : List Byte), Ready s data →
    (asciiScan data = .error .bufferTooShort → exec .pasc s = .next (errorState 0x01 s)) ∧
    (asciiScan data = .error .lengthMismatch → exec .pasc s = .next (errorState 0x02 s)) ∧
    (asciiScan data = .error .invalidHexDigit → exec .pasc s = .next (errorState 0x04 s)) ∧
    (∀ k, asciiScan data = .error k → k ∈ [.bufferTooShort, .lengthMismatch, .invalidHexDigit])

/-- R143, R144: when the scan succeeds with m pairs, `PASC` leaves the decoded byte k in `IN[1+k]` for each k < m and every
other cell as it was, computed from the characters as they stood at the start; then a matching LRC gives the results of
R143, and any other `ChecksumMismatch`. -/
def Obligations.PascCommandResult : Prop :=
  ∀ (s : State) (data : List Byte) (m : Nat), Ready s data → asciiScan data = .ok m →
    ∃ (w : Memory) (d : List Byte),
      d.length = m ∧
      (∀ k < m, d[k]? =
        some (BitVec.ofNat 8 (16 * hexVal (data.getD (1 + 2 * k) 0) + hexVal (data.getD (2 + 2 * k) 0)))) ∧
      (∀ k < m, w.read (1 + k) = d[k]?) ∧ (∀ a, a = 0 ∨ m + 1 ≤ a → w.read a = s.inW.read a) ∧
      (d[m - 1]? = some (lrc (d.take (m - 1))) →
        exec .pasc s =
          .next (endState 0x00 0 ((d.getD 0 0).setWidth 16) 2 (BitVec.ofNat 16 (m - 2)) (BitVec.ofNat 16 (2 * m + 3)) 0
            { s with inW := w })) ∧
      (d[m - 1]? ≠ some (lrc (d.take (m - 1))) → exec .pasc s = .next (errorState 0x03 { s with inW := w }))

/-- R146, R65: `EASC` writes `:`, the hex pairs of address, PDU and LRC, high nibble first, CR and LF to `OUT[0 .. 2L+7)`
and leaves every other cell; with less capacity it writes nothing. -/
def Obligations.EascCommandResult : Prop :=
  (∀ (s : State) (data : List Byte), Ready s data →
    (s.outCap.toNat < 2 * data.length + 7 → exec .easc s = .next (errorState 0x05 s)) ∧
    (2 * data.length + 7 ≤ s.outCap.toNat → ∃ w : Memory,
      exec .easc s = .next (endState 0x00 0 0 0 0 0 (BitVec.ofNat 16 (2 * data.length + 7)) { s with outW := w }) ∧
      w.read 0 = some 0x3A ∧
      (∀ (j : Nat) (b : Byte), (s.unit :: data ++ [lrc (s.unit :: data)])[j]? = some b →
        w.read (1 + 2 * j) = some (hexChar (b.toNat / 16)) ∧ w.read (2 + 2 * j) = some (hexChar (b.toNat % 16))) ∧
      w.read (2 * data.length + 5) = some 0x0D ∧ w.read (2 * data.length + 6) = some 0x0A ∧
      ∀ a, 2 * data.length + 7 ≤ a → w.read a = s.outW.read a)) ∧
  (∀ s t : State, exec .easc s = .next t → t.status ∈ [0x00, 0x05, 0xF1])

/-- R147 (a): a frame `EASC` wrote, put into IN, parses back to its address and PDU; an empty PDU gives `LengthMismatch`. -/
def Obligations.AsciiEncodeThenParse : Prop :=
  ∀ (s t u : State) (pdu frame : List Byte),
    Ready s pdu → exec .easc s = .next t → t.status = 0x00 →
    t.outW.bytes 0 (2 * pdu.length + 7) = some frame → Ready u frame →
    (1 ≤ pdu.length → ∃ w : Memory,
      exec .pasc u =
        .next (endState 0x00 0 (s.unit.setWidth 16) 2 (BitVec.ofNat 16 pdu.length)
          (BitVec.ofNat 16 (2 * pdu.length + 7)) 0 { u with inW := w }) ∧
      w.bytes 2 pdu.length = some pdu) ∧
    (pdu.length = 0 → exec .pasc u = .next (errorState 0x02 u))

/-- R147 (b): the PDU and address a parse found, encoded again, give exactly the characters of the frame. -/
def Obligations.AsciiParseThenEncode : Prop :=
  ∀ (s t u : State) (data pdu : List Byte),
    Ready s data → exec .pasc s = .next t → t.status = 0x00 →
    t.inW.bytes 2 t.pduLen.toNat = some pdu → Ready u pdu → u.unit.setWidth 16 = t.addr →
    t.frameLen.toNat ≤ u.outCap.toNat →
      ∃ v, exec .easc u = .next v ∧ v.status = 0x00 ∧ v.outLen = t.frameLen ∧
        v.outW.bytes 0 t.frameLen.toNat = some (data.take t.frameLen.toNat)

/-- R147 (c), first sentence: a parsable frame with one of its two LRC characters replaced by another hex digit ends in
`ChecksumMismatch`, by a byte that is no hex digit in `InvalidHexDigit`. The LRC characters stand before CR and LF, at
`FRAME_LEN − 4` and `FRAME_LEN − 3`. -/
def Obligations.AsciiCorruptLrcIsRejected : Prop :=
  ∀ (s t u : State) (data : List Byte) (j : Nat) (b : Byte),
    Ready s data → exec .pasc s = .next t → t.status = 0x00 →
    (j + 4 = t.frameLen.toNat ∨ j + 3 = t.frameLen.toNat) → b ≠ data.getD j 0 → Ready u (data.set j b) →
    (isHex b = true → ∃ w : Memory, exec .pasc u = .next (errorState 0x03 { u with inW := w })) ∧
    (isHex b = false → exec .pasc u = .next (errorState 0x04 u))

/-- The short-prefix property (D0 §8, L1-4): a strict prefix of a parsable ASCII frame ends in `BufferTooShort`, with the
window untouched. -/
def Obligations.AsciiStrictPrefixNeedsMoreBytes : Prop :=
  ∀ (s t u : State) (data : List Byte) (k : Nat),
    Ready s data → exec .pasc s = .next t → t.status = 0x00 → k < t.frameLen.toNat → Ready u (data.take k) →
      exec .pasc u = .next (errorState 0x01 u)

/-- R175 for the ASCII parser: bytes appended after the live window change no verdict but `BufferTooShort`; and after
`BufferTooShort` there are three bytes or fewer to append with which the scan ends otherwise, and `PASC` with it. -/
def Obligations.AsciiVerdictStandsWhenBytesAreAppended : Prop :=
  (∀ (s t u : State) (data more : List Byte),
    Ready s data → exec .pasc s = .next t → t.status ≠ 0x01 → Ready u (data ++ more) →
      ∃ w : Memory, exec .pasc u =
        .next (endState t.status t.result t.addr t.pduOff t.pduLen t.frameLen t.outLen { u with inW := w })) ∧
  (∀ (s t : State) (data : List Byte),
    Ready s data → exec .pasc s = .next t → t.status = 0x01 →
      ∃ more : List Byte, more.length ≤ 3 ∧
        ((∃ m, asciiScan (data ++ more) = .ok m) ∨ asciiScan (data ++ more) = .error .lengthMismatch) ∧
        ∀ u, Ready u (data ++ more) → ∃ v, exec .pasc u = .next v ∧ v.status ∈ [0x00, 0x02, 0x03])

/-! ### Unchecked commands -/

/-- R160: an unchecked command whose checked twin, started in the same state, ends with `STATUS` = Ok changes the state as
the twin does; where the twin ends with another kind it faults; `WindowOutOfRange` is reported like by any other. -/
def Obligations.UncheckedCommandsFollowTheirTwins : Prop :=
  ∀ (i j : Instr) (s : State), checkedTwin i = some j → s.fault = false →
    (∀ t, exec j s = .next t → t.status = 0x00 → exec i s = .next t) ∧
    (∀ t, InRange s → exec j s = .next t → t.status ≠ 0x00 → exec i s = .fault .uncheckedPrecondition) ∧
    (¬ InRange s → exec i s = .next (errorState 0xF1 s))

/-- R161, R162: `PRTU.REQ.U` and `PRTU.RSP.U`: with the whole frame there and its trailer right, the results of the parse,
whatever follows the frame; with a whole frame not there or its trailer wrong, a fault; none of D0's error kinds. -/
def Obligations.PrtuUncheckedResult : Prop :=
  (∀ (dir : Dir) (s : State) (data : List Byte), Ready s data →
    (∀ len, 2 ≤ data.length → rtuPduLen dir data = some len → len + 3 ≤ data.length →
      data[len + 1]? = some ((crc16 (data.take (len + 1))).extractLsb' 0 8) →
      data[len + 2]? = some ((crc16 (data.take (len + 1))).extractLsb' 8 8) →
        exec (rtuCommandU dir) s =
          .next (endState 0x00 0 ((data.getD 0 0).setWidth 16) 1 (BitVec.ofNat 16 len) (BitVec.ofNat 16 (len + 3)) 0 s)) ∧
    ((¬ ∃ len, 2 ≤ data.length ∧ rtuPduLen dir data = some len ∧ len + 3 ≤ data.length ∧
      data[len + 1]? = some ((crc16 (data.take (len + 1))).extractLsb' 0 8) ∧
      data[len + 2]? = some ((crc16 (data.take (len + 1))).extractLsb' 8 8)) →
        exec (rtuCommandU dir) s = .fault .uncheckedPrecondition)) ∧
  (∀ (dir : Dir) (s t : State), exec (rtuCommandU dir) s = .next t → t.status = 0x00 ∨ (t.status = 0xF1 ∧ ¬ InRange s))

/-- R163: `PASC.U`: on a frame the scan accepts and whose decoded LRC matches, the in-place decoding and results of
`PASC`; otherwise a fault; none of D0's error kinds. -/
def Obligations.PascUncheckedResult : Prop :=
  (∀ (s : State) (data : List Byte), Ready s data →
    (∀ (m : Nat) (d : List Byte), asciiScan data = .ok m → d.length = m →
      (∀ k < m, d[k]? =
        some (BitVec.ofNat 8 (16 * hexVal (data.getD (1 + 2 * k) 0) + hexVal (data.getD (2 + 2 * k) 0)))) →
      (d[m - 1]? = some (lrc (d.take (m - 1))) → ∃ w : Memory,
        (∀ k < m, w.read (1 + k) = d[k]?) ∧ (∀ a, a = 0 ∨ m + 1 ≤ a → w.read a = s.inW.read a) ∧
        exec .pascU s =
          .next (endState 0x00 0 ((d.getD 0 0).setWidth 16) 2 (BitVec.ofNat 16 (m - 2)) (BitVec.ofNat 16 (2 * m + 3)) 0
            { s with inW := w })) ∧
      (d[m - 1]? ≠ some (lrc (d.take (m - 1))) → exec .pascU s = .fault .uncheckedPrecondition)) ∧
    (∀ k, asciiScan data = .error k → exec .pascU s = .fault .uncheckedPrecondition)) ∧
  (∀ s t : State, exec .pascU s = .next t → t.status = 0x00 ∨ (t.status = 0xF1 ∧ ¬ InRange s))

/-- R164: `ERTU.U`: with the capacity, the frame of R64 and `OUT_LEN` as `ERTU`; without, a fault; none of D0's error
kinds. -/
def Obligations.ErtuUncheckedResult : Prop :=
  (∀ (s : State) (data : List Byte), Ready s data →
    (s.outCap.toNat < data.length + 3 → exec .ertuU s = .fault .uncheckedPrecondition) ∧
    (data.length + 3 ≤ s.outCap.toNat → ∃ w : Memory,
      exec .ertuU s = .next (endState 0x00 0 0 0 0 0 (BitVec.ofNat 16 (data.length + 3)) { s with outW := w }) ∧
      w.bytes 0 (data.length + 3) =
        some (s.unit :: data ++
          [(crc16 (s.unit :: data)).extractLsb' 0 8, (crc16 (s.unit :: data)).extractLsb' 8 8]) ∧
      ∀ a, data.length + 3 ≤ a → w.read a = s.outW.read a)) ∧
  (∀ s t : State, exec .ertuU s = .next t → t.status = 0x00 ∨ (t.status = 0xF1 ∧ ¬ InRange s))

/-- R165: `EASC.U`: with the capacity, the frame of R65 and `OUT_LEN` as `EASC`; without, a fault; none of D0's error
kinds. -/
def Obligations.EascUncheckedResult : Prop :=
  (∀ (s : State) (data : List Byte), Ready s data →
    (s.outCap.toNat < 2 * data.length + 7 → exec .eascU s = .fault .uncheckedPrecondition) ∧
    (2 * data.length + 7 ≤ s.outCap.toNat → ∃ w : Memory,
      exec .eascU s = .next (endState 0x00 0 0 0 0 0 (BitVec.ofNat 16 (2 * data.length + 7)) { s with outW := w }) ∧
      w.read 0 = some 0x3A ∧
      (∀ (j : Nat) (b : Byte), (s.unit :: data ++ [lrc (s.unit :: data)])[j]? = some b →
        w.read (1 + 2 * j) = some (hexChar (b.toNat / 16)) ∧ w.read (2 + 2 * j) = some (hexChar (b.toNat % 16))) ∧
      w.read (2 * data.length + 5) = some 0x0D ∧ w.read (2 * data.length + 6) = some 0x0A ∧
      ∀ a, 2 * data.length + 7 ≤ a → w.read a = s.outW.read a)) ∧
  (∀ s t : State, exec .eascU s = .next t → t.status = 0x00 ∨ (t.status = 0xF1 ∧ ¬ InRange s))
end

