-- ==== Sys2Proof/Laws/Memory.lean ====
section
/-! SUPPORT. Windows: reads after writes, the canonical form, blocks of bytes. -/

namespace Sys2Proof.Machine

/-! ### One cell -/

@[simp] theorem Memory.read_nil (a : Nat) : Memory.read [] a = none := rfl

@[simp] theorem Memory.read_cons (k : Nat) (v : Byte) (m : Memory) (a : Nat) :
    Memory.read ((k, v) :: m) a = if k = a then some v else Memory.read m a := rfl

@[simp] theorem Memory.read_write_same (m : Memory) (a : Nat) (v : Byte) : (m.write a v).read a = some v := by
  induction m with
  | nil => simp [Memory.write]
  | cons c m ih =>
    obtain ⟨k, x⟩ := c
    by_cases h1 : a < k
    · simp [Memory.write, h1]
    · by_cases h2 : a = k
      · simp [Memory.write, h2]
      · simp [Memory.write, h1, h2, ih, Ne.symm h2]

theorem Memory.read_write_ne (m : Memory) {a b : Nat} (v : Byte) (h : b ≠ a) : (m.write a v).read b = m.read b := by
  induction m with
  | nil => simp [Memory.write, Ne.symm h]
  | cons c m ih =>
    obtain ⟨k, x⟩ := c
    by_cases h1 : a < k
    · simp [Memory.write, h1, Ne.symm h]
    · by_cases h2 : a = k
      · subst h2; simp [Memory.write, Ne.symm h]
      · simp [Memory.write, h1, h2, ih]

theorem Memory.read_write (m : Memory) (a b : Nat) (v : Byte) :
    (m.write a v).read b = if b = a then some v else m.read b := by
  by_cases h : b = a
  · subst h; simp
  · simp [h, Memory.read_write_ne]

/-! ### The canonical form -/

theorem Memory.mem_write (m : Memory) (a : Nat) (v : Byte) {c : Host.Cell} (h : c ∈ m.write a v) :
    c = (a, v) ∨ c ∈ m := by
  induction m with
  | nil => simpa [Memory.write] using h
  | cons d m ih =>
    obtain ⟨k, x⟩ := d
    simp only [Memory.write] at h
    split at h
    · simpa using h
    · split at h
      · rcases List.mem_cons.1 h with h | h
        · exact .inl h
        · exact .inr (List.mem_cons_of_mem _ h)
      · rcases List.mem_cons.1 h with h | h
        · exact .inr (h ▸ List.mem_cons_self)
        · exact (ih h).imp id (List.mem_cons_of_mem _)

/-- A write keeps the canonical form. -/
theorem Memory.wf_write {m : Memory} (hm : m.wf) (a : Nat) (v : Byte) : (m.write a v).wf := by
  induction m with
  | nil => simp [Memory.write, Memory.wf]
  | cons d m ih =>
    obtain ⟨k, x⟩ := d
    have hm' := List.pairwise_cons.1 hm
    simp only [Memory.write]
    split
    · rename_i hk
      refine List.pairwise_cons.2 ⟨fun c hc => ?_, hm⟩
      rcases List.mem_cons.1 hc with rfl | hc
      · exact hk
      · exact Nat.lt_trans hk (hm'.1 c hc)
    · split
      · rename_i hk
        exact List.pairwise_cons.2 ⟨fun c hc => hk ▸ hm'.1 c hc, hm'.2⟩
      · rename_i h1 h2
        refine List.pairwise_cons.2 ⟨fun c hc => ?_, ih hm'.2⟩
        rcases Memory.mem_write m a v hc with rfl | hc
        · show k < a
          omega
        · exact hm'.1 c hc

theorem Memory.within_write {m : Memory} {size a : Nat} (hm : m.within size) (ha : a < size) (v : Byte) :
    (m.write a v).within size := fun c hc => by
  rcases Memory.mem_write m a v hc with rfl | hc
  · exact ha
  · exact hm c hc

theorem Memory.read_eq_none_of_lt {m : Memory} {a : Nat} (h : ∀ c ∈ m, a < c.1) : m.read a = none := by
  induction m with
  | nil => rfl
  | cons d m ih =>
    obtain ⟨k, x⟩ := d
    have hk : a < k := h (k, x) List.mem_cons_self
    simp only [Memory.read_cons]
    rw [if_neg (by omega)]
    exact ih fun c hc => h c (List.mem_cons_of_mem _ hc)

/-- Equal windows are equal data: two windows in canonical form that read alike are the same list. -/
theorem Memory.ext_read {m m' : Memory} (hm : m.wf) (hm' : m'.wf) (h : ∀ a, m.read a = m'.read a) : m = m' := by
  induction m generalizing m' with
  | nil =>
    cases m' with
    | nil => rfl
    | cons d m' =>
      obtain ⟨k, v⟩ := d
      simpa using h k
  | cons c m ih =>
    obtain ⟨k, v⟩ := c
    cases m' with
    | nil => simpa using h k
    | cons d m' =>
      obtain ⟨k', v'⟩ := d
      have hm1 := List.pairwise_cons.1 hm
      have hm2 := List.pairwise_cons.1 hm'
      have low : ∀ a, a < k → Memory.read ((k, v) :: m) a = none := fun a ha =>
        Memory.read_eq_none_of_lt fun c hc => by
          rcases List.mem_cons.1 hc with rfl | hc
          · exact ha
          · exact Nat.lt_trans ha (hm1.1 c hc)
      have low' : ∀ a, a < k' → Memory.read ((k', v') :: m') a = none := fun a ha =>
        Memory.read_eq_none_of_lt fun c hc => by
          rcases List.mem_cons.1 hc with rfl | hc
          · exact ha
          · exact Nat.lt_trans ha (hm2.1 c hc)
      have hk : k = k' := by
        rcases Nat.lt_trichotomy k k' with hlt | heq | hgt
        · have := h k; rw [low' k hlt] at this; simp at this
        · exact heq
        · have := h k'; rw [low k' hgt] at this; simp at this
      subst hk
      have hv : v = v' := by simpa using h k
      subst hv
      congr 1
      refine ih hm1.2 hm2.2 fun a => ?_
      by_cases ha : k = a
      · subst ha
        rw [Memory.read_eq_none_of_lt hm1.1, Memory.read_eq_none_of_lt hm2.1]
      · simpa [ha] using h a

/-! ### Blocks of bytes -/

@[simp] theorem Memory.bytes_zero (m : Memory) (a : Nat) : m.bytes a 0 = some [] := rfl

/-- What `W[a .. a+n)` holds: the list of the n bytes read. -/
theorem Memory.bytes_eq_some {m : Memory} {a n : Nat} {bs : List Byte} :
    m.bytes a n = some bs ↔ bs.length = n ∧ ∀ i < n, m.read (a + i) = bs[i]? := by
  induction n generalizing a bs with
  | zero =>
    simp only [Memory.bytes_zero, Option.some.injEq, Nat.not_lt_zero, false_implies, implies_true, and_true]
    exact ⟨fun h => by simp [← h], fun h => (List.length_eq_zero_iff.1 h).symm⟩
  | succ n ih =>
    simp only [Memory.bytes]
    cases hr : m.read a with
    | none =>
      simp only [reduceCtorEq, false_iff, not_and, not_forall]
      intro hl
      refine ⟨0, by omega, ?_⟩
      cases bs with
      | nil => simp at hl
      | cons b bs => simp [hr]
    | some b =>
      cases hb : m.bytes (a + 1) n with
      | none =>
        simp only [reduceCtorEq, false_iff]
        rintro ⟨hl, h⟩
        cases bs with
        | nil => simp at hl
        | cons c bs =>
          have : m.bytes (a + 1) n = some bs := ih.2 ⟨by simpa using hl, fun i hi => by
            have := h (i + 1) (by omega)
            rw [show a + (i + 1) = a + 1 + i by omega] at this
            simpa using this⟩
          simp [hb] at this
      | some bs' =>
        obtain ⟨hl', h'⟩ := ih.1 hb
        simp only [Option.some.injEq]
        constructor
        · rintro rfl
          refine ⟨by simp [hl'], fun i hi => ?_⟩
          cases i with
          | zero => simpa using hr
          | succ i =>
            rw [show a + (i + 1) = a + 1 + i by omega]
            simpa using h' i (by omega)
        · rintro ⟨hl, h⟩
          cases bs with
          | nil => simp at hl
          | cons c bs =>
            have h0 := h 0 (by omega)
            simp only [Nat.add_zero, hr, List.getElem?_cons_zero, Option.some.injEq] at h0
            subst h0
            congr 1
            have : m.bytes (a + 1) n = some bs := ih.2 ⟨by simpa using hl, fun i hi => by
              have := h (i + 1) (by omega)
              rw [show a + (i + 1) = a + 1 + i by omega] at this
              simpa using this⟩
            simpa [hb] using this

theorem Memory.bytes_length {m : Memory} {a n : Nat} {bs : List Byte} (h : m.bytes a n = some bs) : bs.length = n :=
  (Memory.bytes_eq_some.1 h).1

/-- `W[a .. a+n)` has no list exactly when one of its cells holds no value. -/
theorem Memory.bytes_eq_none {m : Memory} {a n : Nat} :
    m.bytes a n = none ↔ ∃ i < n, m.read (a + i) = none := by
  induction n generalizing a with
  | zero => simp
  | succ n ih =>
    simp only [Memory.bytes]
    cases hr : m.read a with
    | none => exact iff_of_true rfl ⟨0, by omega, by simpa using hr⟩
    | some b =>
      cases hb : m.bytes (a + 1) n with
      | none =>
        obtain ⟨i, hi, h⟩ := ih.1 hb
        exact iff_of_true rfl ⟨i + 1, by omega, by rw [show a + (i + 1) = a + 1 + i by omega]; exact h⟩
      | some bs =>
        refine iff_of_false (by simp) ?_
        rintro ⟨i, hi, h⟩
        cases i with
        | zero => simp [hr] at h
        | succ i =>
          have : m.bytes (a + 1) n = none := ih.2 ⟨i, by omega, by
            rw [show a + 1 + i = a + (i + 1) by omega]; exact h⟩
          simp [hb] at this

/-- What a cell reads after a block write. -/
theorem Memory.read_writeBytes (m : Memory) (a : Nat) (bs : List Byte) (b : Nat) :
    (m.writeBytes a bs).read b = if a ≤ b ∧ b < a + bs.length then bs[b - a]? else m.read b := by
  induction bs generalizing m a with
  | nil => simp [Memory.writeBytes]
  | cons c bs ih =>
    simp only [Memory.writeBytes, ih, Memory.read_write, List.length_cons]
    by_cases h1 : b = a
    · subst h1
      rw [if_neg (by omega), if_pos rfl, if_pos (by omega)]
      simp
    · by_cases h2 : a + 1 ≤ b ∧ b < a + 1 + bs.length
      · rw [if_pos h2, if_pos (by omega), show b - a = (b - (a + 1)) + 1 by omega]
        simp
      · rw [if_neg h2, if_neg h1, if_neg (by omega)]

theorem Memory.bytes_writeBytes (m : Memory) (a : Nat) (bs : List Byte) :
    (m.writeBytes a bs).bytes a bs.length = some bs :=
  Memory.bytes_eq_some.2 ⟨rfl, fun i hi => by
    rw [Memory.read_writeBytes, if_pos (by omega), Nat.add_sub_cancel_left]⟩

theorem Memory.wf_writeBytes {m : Memory} (hm : m.wf) (a : Nat) (bs : List Byte) : (m.writeBytes a bs).wf := by
  induction bs generalizing m a with
  | nil => exact hm
  | cons b bs ih => exact ih (Memory.wf_write hm a b) (a + 1)

theorem Memory.within_writeBytes {m : Memory} {size a : Nat} (hm : m.within size) (bs : List Byte)
    (h : a + bs.length ≤ size) : (m.writeBytes a bs).within size := by
  induction bs generalizing m a with
  | nil => exact hm
  | cons b bs ih =>
    simp only [List.length_cons] at h
    exact ih (Memory.within_write hm (by omega) b) (by omega)

end Sys2Proof.Machine
end

