-- ==== Sys2Proof/Laws/State.lean ====
section
/-! SUPPORT. One lemma per field per update of the state, so that no later proof unfolds a record update. -/

namespace Sys2Proof.Machine

/-! ### `advance` -/

@[simp] theorem advance_cfg (s : State) : (advance s).cfg = s.cfg := rfl
@[simp] theorem advance_cmd (s : State) : (advance s).cmd = s.cmd := rfl
@[simp] theorem advance_status (s : State) : (advance s).status = s.status := rfl
@[simp] theorem advance_inLen (s : State) : (advance s).inLen = s.inLen := rfl
@[simp] theorem advance_outCap (s : State) : (advance s).outCap = s.outCap := rfl
@[simp] theorem advance_unit (s : State) : (advance s).unit = s.unit := rfl
@[simp] theorem advance_result (s : State) : (advance s).result = s.result := rfl
@[simp] theorem advance_addr (s : State) : (advance s).addr = s.addr := rfl
@[simp] theorem advance_pduOff (s : State) : (advance s).pduOff = s.pduOff := rfl
@[simp] theorem advance_pduLen (s : State) : (advance s).pduLen = s.pduLen := rfl
@[simp] theorem advance_frameLen (s : State) : (advance s).frameLen = s.frameLen := rfl
@[simp] theorem advance_outLen (s : State) : (advance s).outLen = s.outLen := rfl
@[simp] theorem advance_fault (s : State) : (advance s).fault = s.fault := rfl
@[simp] theorem advance_inW (s : State) : (advance s).inW = s.inW := rfl
@[simp] theorem advance_outW (s : State) : (advance s).outW = s.outW := rfl
@[simp] theorem advance_host (s : State) : (advance s).host = { s.host with pos := s.host.pos + 1 } := rfl

/-! ### `jumpTo` -/

@[simp] theorem jumpTo_cfg (t : Nat) (s : State) : (jumpTo t s).cfg = s.cfg := rfl
@[simp] theorem jumpTo_cmd (t : Nat) (s : State) : (jumpTo t s).cmd = s.cmd := rfl
@[simp] theorem jumpTo_status (t : Nat) (s : State) : (jumpTo t s).status = s.status := rfl
@[simp] theorem jumpTo_inLen (t : Nat) (s : State) : (jumpTo t s).inLen = s.inLen := rfl
@[simp] theorem jumpTo_outCap (t : Nat) (s : State) : (jumpTo t s).outCap = s.outCap := rfl
@[simp] theorem jumpTo_unit (t : Nat) (s : State) : (jumpTo t s).unit = s.unit := rfl
@[simp] theorem jumpTo_result (t : Nat) (s : State) : (jumpTo t s).result = s.result := rfl
@[simp] theorem jumpTo_addr (t : Nat) (s : State) : (jumpTo t s).addr = s.addr := rfl
@[simp] theorem jumpTo_pduOff (t : Nat) (s : State) : (jumpTo t s).pduOff = s.pduOff := rfl
@[simp] theorem jumpTo_pduLen (t : Nat) (s : State) : (jumpTo t s).pduLen = s.pduLen := rfl
@[simp] theorem jumpTo_frameLen (t : Nat) (s : State) : (jumpTo t s).frameLen = s.frameLen := rfl
@[simp] theorem jumpTo_outLen (t : Nat) (s : State) : (jumpTo t s).outLen = s.outLen := rfl
@[simp] theorem jumpTo_fault (t : Nat) (s : State) : (jumpTo t s).fault = s.fault := rfl
@[simp] theorem jumpTo_inW (t : Nat) (s : State) : (jumpTo t s).inW = s.inW := rfl
@[simp] theorem jumpTo_outW (t : Nat) (s : State) : (jumpTo t s).outW = s.outW := rfl
@[simp] theorem jumpTo_host (t : Nat) (s : State) : (jumpTo t s).host = { s.host with pos := t } := rfl

/-! ### `reply` -/

@[simp] theorem reply_cfg (x : Source) (v : Word) (s : State) : (reply x v s).cfg = s.cfg := rfl
@[simp] theorem reply_cmd (x : Source) (v : Word) (s : State) : (reply x v s).cmd = s.cmd := rfl
@[simp] theorem reply_status (x : Source) (v : Word) (s : State) : (reply x v s).status = s.status := rfl
@[simp] theorem reply_inLen (x : Source) (v : Word) (s : State) : (reply x v s).inLen = s.inLen := rfl
@[simp] theorem reply_outCap (x : Source) (v : Word) (s : State) : (reply x v s).outCap = s.outCap := rfl
@[simp] theorem reply_unit (x : Source) (v : Word) (s : State) : (reply x v s).unit = s.unit := rfl
@[simp] theorem reply_result (x : Source) (v : Word) (s : State) : (reply x v s).result = s.result := rfl
@[simp] theorem reply_addr (x : Source) (v : Word) (s : State) : (reply x v s).addr = s.addr := rfl
@[simp] theorem reply_pduOff (x : Source) (v : Word) (s : State) : (reply x v s).pduOff = s.pduOff := rfl
@[simp] theorem reply_pduLen (x : Source) (v : Word) (s : State) : (reply x v s).pduLen = s.pduLen := rfl
@[simp] theorem reply_frameLen (x : Source) (v : Word) (s : State) : (reply x v s).frameLen = s.frameLen := rfl
@[simp] theorem reply_outLen (x : Source) (v : Word) (s : State) : (reply x v s).outLen = s.outLen := rfl
@[simp] theorem reply_fault (x : Source) (v : Word) (s : State) : (reply x v s).fault = s.fault := rfl
@[simp] theorem reply_inW (x : Source) (v : Word) (s : State) : (reply x v s).inW = s.inW := rfl
@[simp] theorem reply_outW (x : Source) (v : Word) (s : State) : (reply x v s).outW = s.outW := rfl
@[simp] theorem reply_host (x : Source) (v : Word) (s : State) : (reply x v s).host = { s.host with replies := (x, v) :: s.host.replies } := rfl

/-! ### `commandDone` -/

@[simp] theorem commandDone_cfg (r : Results) (s : State) : (commandDone r s).cfg = s.cfg := rfl
@[simp] theorem commandDone_cmd (r : Results) (s : State) : (commandDone r s).cmd = s.cmd := rfl
@[simp] theorem commandDone_status (r : Results) (s : State) : (commandDone r s).status = statusOk := rfl
@[simp] theorem commandDone_inLen (r : Results) (s : State) : (commandDone r s).inLen = s.inLen := rfl
@[simp] theorem commandDone_outCap (r : Results) (s : State) : (commandDone r s).outCap = s.outCap := rfl
@[simp] theorem commandDone_unit (r : Results) (s : State) : (commandDone r s).unit = s.unit := rfl
@[simp] theorem commandDone_result (r : Results) (s : State) : (commandDone r s).result = r.result := rfl
@[simp] theorem commandDone_addr (r : Results) (s : State) : (commandDone r s).addr = r.addr := rfl
@[simp] theorem commandDone_pduOff (r : Results) (s : State) : (commandDone r s).pduOff = r.pduOff := rfl
@[simp] theorem commandDone_pduLen (r : Results) (s : State) : (commandDone r s).pduLen = r.pduLen := rfl
@[simp] theorem commandDone_frameLen (r : Results) (s : State) : (commandDone r s).frameLen = r.frameLen := rfl
@[simp] theorem commandDone_outLen (r : Results) (s : State) : (commandDone r s).outLen = r.outLen := rfl
@[simp] theorem commandDone_fault (r : Results) (s : State) : (commandDone r s).fault = s.fault := rfl
@[simp] theorem commandDone_inW (r : Results) (s : State) : (commandDone r s).inW = s.inW := rfl
@[simp] theorem commandDone_outW (r : Results) (s : State) : (commandDone r s).outW = s.outW := rfl
@[simp] theorem commandDone_host (r : Results) (s : State) : (commandDone r s).host = s.host := rfl

/-! ### `raiseError` -/

@[simp] theorem raiseError_cfg (k : ErrorKind) (s : State) : (raiseError k s).cfg = s.cfg := rfl
@[simp] theorem raiseError_cmd (k : ErrorKind) (s : State) : (raiseError k s).cmd = s.cmd := rfl
@[simp] theorem raiseError_status (k : ErrorKind) (s : State) : (raiseError k s).status = statusCode k := rfl
@[simp] theorem raiseError_inLen (k : ErrorKind) (s : State) : (raiseError k s).inLen = s.inLen := rfl
@[simp] theorem raiseError_outCap (k : ErrorKind) (s : State) : (raiseError k s).outCap = s.outCap := rfl
@[simp] theorem raiseError_unit (k : ErrorKind) (s : State) : (raiseError k s).unit = s.unit := rfl
@[simp] theorem raiseError_result (k : ErrorKind) (s : State) : (raiseError k s).result = 0 := rfl
@[simp] theorem raiseError_addr (k : ErrorKind) (s : State) : (raiseError k s).addr = 0 := rfl
@[simp] theorem raiseError_pduOff (k : ErrorKind) (s : State) : (raiseError k s).pduOff = 0 := rfl
@[simp] theorem raiseError_pduLen (k : ErrorKind) (s : State) : (raiseError k s).pduLen = 0 := rfl
@[simp] theorem raiseError_frameLen (k : ErrorKind) (s : State) : (raiseError k s).frameLen = 0 := rfl
@[simp] theorem raiseError_outLen (k : ErrorKind) (s : State) : (raiseError k s).outLen = 0 := rfl
@[simp] theorem raiseError_fault (k : ErrorKind) (s : State) : (raiseError k s).fault = s.fault := rfl
@[simp] theorem raiseError_inW (k : ErrorKind) (s : State) : (raiseError k s).inW = s.inW := rfl
@[simp] theorem raiseError_outW (k : ErrorKind) (s : State) : (raiseError k s).outW = s.outW := rfl
@[simp] theorem raiseError_host (k : ErrorKind) (s : State) : (raiseError k s).host = s.host := rfl

/-! ### `State.resetWith` -/

@[simp] theorem State.resetWith_cfg (cfg : Config) : (State.resetWith cfg).cfg = cfg := rfl
@[simp] theorem State.resetWith_cmd (cfg : Config) : (State.resetWith cfg).cmd = 0 := rfl
@[simp] theorem State.resetWith_status (cfg : Config) : (State.resetWith cfg).status = 0 := rfl
@[simp] theorem State.resetWith_inLen (cfg : Config) : (State.resetWith cfg).inLen = 0 := rfl
@[simp] theorem State.resetWith_outCap (cfg : Config) : (State.resetWith cfg).outCap = 0 := rfl
@[simp] theorem State.resetWith_unit (cfg : Config) : (State.resetWith cfg).unit = 0 := rfl
@[simp] theorem State.resetWith_result (cfg : Config) : (State.resetWith cfg).result = 0 := rfl
@[simp] theorem State.resetWith_addr (cfg : Config) : (State.resetWith cfg).addr = 0 := rfl
@[simp] theorem State.resetWith_pduOff (cfg : Config) : (State.resetWith cfg).pduOff = 0 := rfl
@[simp] theorem State.resetWith_pduLen (cfg : Config) : (State.resetWith cfg).pduLen = 0 := rfl
@[simp] theorem State.resetWith_frameLen (cfg : Config) : (State.resetWith cfg).frameLen = 0 := rfl
@[simp] theorem State.resetWith_outLen (cfg : Config) : (State.resetWith cfg).outLen = 0 := rfl
@[simp] theorem State.resetWith_fault (cfg : Config) : (State.resetWith cfg).fault = false := rfl
@[simp] theorem State.resetWith_inW (cfg : Config) : (State.resetWith cfg).inW = [] := rfl
@[simp] theorem State.resetWith_outW (cfg : Config) : (State.resetWith cfg).outW = [] := rfl
@[simp] theorem State.resetWith_host (cfg : Config) : (State.resetWith cfg).host = ⟨[], 0, []⟩ := rfl

/-! ### `blockReset` -/

@[simp] theorem blockReset_cfg (s : State) : (blockReset s).cfg = s.cfg := rfl
@[simp] theorem blockReset_cmd (s : State) : (blockReset s).cmd = 0 := rfl
@[simp] theorem blockReset_status (s : State) : (blockReset s).status = 0 := rfl
@[simp] theorem blockReset_inLen (s : State) : (blockReset s).inLen = 0 := rfl
@[simp] theorem blockReset_outCap (s : State) : (blockReset s).outCap = 0 := rfl
@[simp] theorem blockReset_unit (s : State) : (blockReset s).unit = 0 := rfl
@[simp] theorem blockReset_result (s : State) : (blockReset s).result = 0 := rfl
@[simp] theorem blockReset_addr (s : State) : (blockReset s).addr = 0 := rfl
@[simp] theorem blockReset_pduOff (s : State) : (blockReset s).pduOff = 0 := rfl
@[simp] theorem blockReset_pduLen (s : State) : (blockReset s).pduLen = 0 := rfl
@[simp] theorem blockReset_frameLen (s : State) : (blockReset s).frameLen = 0 := rfl
@[simp] theorem blockReset_outLen (s : State) : (blockReset s).outLen = 0 := rfl
@[simp] theorem blockReset_fault (s : State) : (blockReset s).fault = false := rfl
@[simp] theorem blockReset_inW (s : State) : (blockReset s).inW = [] := rfl
@[simp] theorem blockReset_outW (s : State) : (blockReset s).outW = [] := rfl
@[simp] theorem blockReset_host (s : State) : (blockReset s).host = s.host := rfl

/-! ### `storeReg`: the fields no host write to a register changes -/

@[simp] theorem storeReg_cfg (r : Reg) (v : Word) (s : State) : (storeReg r v s).cfg = s.cfg := by
  cases r <;> rfl
@[simp] theorem storeReg_status (r : Reg) (v : Word) (s : State) : (storeReg r v s).status = s.status := by
  cases r <;> rfl
@[simp] theorem storeReg_result (r : Reg) (v : Word) (s : State) : (storeReg r v s).result = s.result := by
  cases r <;> rfl
@[simp] theorem storeReg_addr (r : Reg) (v : Word) (s : State) : (storeReg r v s).addr = s.addr := by
  cases r <;> rfl
@[simp] theorem storeReg_pduOff (r : Reg) (v : Word) (s : State) : (storeReg r v s).pduOff = s.pduOff := by
  cases r <;> rfl
@[simp] theorem storeReg_pduLen (r : Reg) (v : Word) (s : State) : (storeReg r v s).pduLen = s.pduLen := by
  cases r <;> rfl
@[simp] theorem storeReg_frameLen (r : Reg) (v : Word) (s : State) : (storeReg r v s).frameLen = s.frameLen := by
  cases r <;> rfl
@[simp] theorem storeReg_outLen (r : Reg) (v : Word) (s : State) : (storeReg r v s).outLen = s.outLen := by
  cases r <;> rfl
@[simp] theorem storeReg_fault (r : Reg) (v : Word) (s : State) : (storeReg r v s).fault = s.fault := by
  cases r <;> rfl
@[simp] theorem storeReg_inW (r : Reg) (v : Word) (s : State) : (storeReg r v s).inW = s.inW := by
  cases r <;> rfl
@[simp] theorem storeReg_outW (r : Reg) (v : Word) (s : State) : (storeReg r v s).outW = s.outW := by
  cases r <;> rfl
@[simp] theorem storeReg_host (r : Reg) (v : Word) (s : State) : (storeReg r v s).host = s.host := by
  cases r <;> rfl

@[simp] theorem storeReg_cmd (v : Word) (s : State) : storeReg .cmd v s = { s with cmd := v } := rfl

end Sys2Proof.Machine
end

