-- ==== Sys2Proof/Laws/Ops.lean ====
section
/-! SUPPORT. What the shared operations of a command can do: the prologue, the ends of a command, and every command as
one prologue, one piece of pseudocode and one end. -/

namespace Sys2Proof.Machine

/-! ### Live bytes and the prologue -/

theorem liveData_eq_some {s : State} {data : List Byte} :
    liveData s = some data ↔ data.length = s.inLen.toNat ∧ ∀ i < s.inLen.toNat, s.inW.read i = data[i]? := by
  simp only [liveData, Memory.bytes_eq_some, Nat.zero_add]

theorem liveData_eq_none {s : State} : liveData s = none ↔ ¬ AllLive s := by
  simp only [liveData, Memory.bytes_eq_none, Nat.zero_add]
  constructor
  · rintro ⟨i, hi, h⟩ hall
    exact hall i hi h
  · intro h
    by_contra hc
    exact h fun a ha hr => hc ⟨a, ha, hr⟩

theorem allLive_iff {s : State} : AllLive s ↔ ∃ data, liveData s = some data := by
  rw [← not_iff_not, ← liveData_eq_none]
  cases liveData s <;> simp

theorem Ready.length {s : State} {data : List Byte} (h : Ready s data) : data.length = s.inLen.toNat :=
  (liveData_eq_some.1 h.2.2).1

theorem Ready.read {s : State} {data : List Byte} (h : Ready s data) {i : Nat} (hi : i < data.length) :
    s.inW.read i = data[i]? :=
  (liveData_eq_some.1 h.2.2).2 i (h.length ▸ hi)

theorem Ready.length_lt {s : State} {data : List Byte} (h : Ready s data) : data.length < 65536 := by
  rw [h.length]; exact s.inLen.isLt

theorem outOfRange_eq_false {s : State} : outOfRange s = false ↔ InRange s := by
  simp [outOfRange, InRange]

theorem outOfRange_eq_true {s : State} : outOfRange s = true ↔ ¬ InRange s := by
  rw [← outOfRange_eq_false]; simp

theorem prologue_of_ready {s : State} {data : List Byte} (h : Ready s data) (body : List Byte → StepResult) :
    prologue s body = body data := by
  obtain ⟨hf, hr, hd⟩ := h
  simp [prologue, hf, outOfRange_eq_false.2 hr, hd]

theorem prologue_of_fault {s : State} (h : s.fault = true) (body : List Byte → StepResult) :
    prologue s body = .fault .inFaultState := by
  simp [prologue, h, takeFault]

theorem prologue_of_not_inRange {s : State} (hf : s.fault = false) (hr : ¬ InRange s) (body : List Byte → StepResult) :
    prologue s body = .next (raiseError .windowOutOfRange s) := by
  simp [prologue, hf, outOfRange_eq_true.2 hr]

theorem prologue_of_not_allLive {s : State} (hf : s.fault = false) (hr : InRange s) (hl : ¬ AllLive s)
    (body : List Byte → StepResult) : prologue s body = .fault .valuelessCell := by
  simp [prologue, hf, outOfRange_eq_false.2 hr, liveData_eq_none.2 hl, takeFault]

/-- Every state is one of the prologue's four cases. -/
theorem prologue_cases (s : State) :
    s.fault = true ∨ (s.fault = false ∧ ¬ InRange s) ∨ (s.fault = false ∧ InRange s ∧ ¬ AllLive s) ∨
      ∃ data, Ready s data := by
  by_cases hf : s.fault = true
  · exact .inl hf
  · have hf : s.fault = false := by simpa using hf
    by_cases hr : InRange s
    · by_cases hl : AllLive s
      · obtain ⟨data, hd⟩ := allLive_iff.1 hl
        exact .inr (.inr (.inr ⟨data, hf, hr, hd⟩))
      · exact .inr (.inr (.inl ⟨hf, hr, hl⟩))
    · exact .inr (.inl ⟨hf, hr⟩)

/-- If a command answers a next state, the range check failed or its pseudocode ran on the live bytes. -/
theorem prologue_next {s t : State} {body : List Byte → StepResult} (h : prologue s body = .next t) :
    (s.fault = false ∧ ¬ InRange s ∧ t = raiseError .windowOutOfRange s) ∨
      ∃ data, Ready s data ∧ body data = .next t := by
  rcases prologue_cases s with hf | ⟨hf, hr⟩ | ⟨hf, hr, hl⟩ | ⟨data, hd⟩
  · simp [prologue_of_fault hf] at h
  · rw [prologue_of_not_inRange hf hr] at h
    exact .inl ⟨hf, hr, by simpa using h.symm⟩
  · simp [prologue_of_not_allLive hf hr hl] at h
  · rw [prologue_of_ready hd] at h
    exact .inr ⟨data, hd, h⟩

/-! ### The end of a command -/

theorem commandDone_eq_endState (r : Results) (s : State) :
    commandDone r s = endState 0x00 r.result r.addr r.pduOff r.pduLen r.frameLen r.outLen s := rfl

theorem raiseError_eq_errorState (k : ErrorKind) (s : State) : raiseError k s = errorState (statusCode k) s := rfl

@[simp] theorem endChecked_done (s : State) (r : Results) : endChecked (s, .done r) = .next (commandDone r s) := rfl

@[simp] theorem endChecked_raise (s : State) (k : ErrorKind) : endChecked (s, .raise k) = .next (raiseError k s) := rfl

@[simp] theorem endChecked_noValue (s : State) : endChecked (s, .noValue) = .fault .valuelessCell := rfl

@[simp] theorem endUnchecked_done (s : State) (r : Results) : endUnchecked (s, .done r) = .next (commandDone r s) := rfl

@[simp] theorem endUnchecked_raise (s : State) (k : ErrorKind) :
    endUnchecked (s, .raise k) = .fault .uncheckedPrecondition := rfl

@[simp] theorem endUnchecked_noValue (s : State) : endUnchecked (s, .noValue) = .fault .valuelessCell := rfl

theorem statusCode_ne_ok (k : ErrorKind) : statusCode k ≠ statusOk := by cases k <;> decide

theorem statusCode_mem (k : ErrorKind) : statusCode k ∈ statusCodes := by cases k <;> decide

/-! ### Every command in one form -/

/-- The pseudocode of a command after its prologue, on the live bytes: the state its window writes leave, and its end. -/
def commandBody (i : Instr) (s : State) (data : List Byte) : State × Ending :=
  match i with
  | .crc16 => (s, .done { result := Machine.crc16 data })
  | .lrc => (s, .done { result := zext16 (Machine.lrc data) })
  | .vcrc16 => (s, .done { result := verdict (verifyCrc16 data) })
  | .vlrc => (s, .done { result := verdict (verifyLrc data) })
  | .prtuReq | .prtuReqU => (s, parseRtu .req data)
  | .prtuRsp | .prtuRspU => (s, parseRtu .rsp data)
  | .pasc | .pascU => parseAscii s data
  | .ertu | .ertuU => encodeRtu s data
  | .easc | .eascU => encodeAscii s data

/-- The end a command's form has (R160). -/
def commandEnd (i : Instr) (e : State × Ending) : StepResult := if isChecked i then endChecked e else endUnchecked e

theorem exec_eq (i : Instr) (s : State) :
    exec i s = prologue s fun data => commandEnd i (commandBody i s data) := by
  cases i <;> rfl

theorem exec_of_ready {i : Instr} {s : State} {data : List Byte} (h : Ready s data) :
    exec i s = commandEnd i (commandBody i s data) := by
  rw [exec_eq, prologue_of_ready h]

/-- If a command answers a next state: it was out of range, or it ended `done`, or it is checked and raised an error. -/
theorem exec_next {i : Instr} {s t : State} (h : exec i s = .next t) :
    (s.fault = false ∧ ¬ InRange s ∧ t = raiseError .windowOutOfRange s) ∨
      ∃ data, Ready s data ∧
        ((∃ w r, commandBody i s data = (w, .done r) ∧ t = commandDone r w) ∨
          (isChecked i = true ∧ ∃ w k, commandBody i s data = (w, .raise k) ∧ t = raiseError k w)) := by
  rw [exec_eq] at h
  rcases prologue_next h with h | ⟨data, hd, h⟩
  · exact .inl h
  · refine .inr ⟨data, hd, ?_⟩
    rcases hb : commandBody i s data with ⟨w, r | k | _⟩
    · refine .inl ⟨w, r, rfl, ?_⟩
      rw [hb, commandEnd] at h
      split at h <;> simpa using h.symm
    · refine .inr ?_
      rw [hb, commandEnd] at h
      split at h
      · exact ⟨‹_›, w, k, rfl, by simpa using h.symm⟩
      · simp at h
    · rw [hb, commandEnd] at h
      split at h <;> simp at h

theorem checkedTwin_body {i j : Instr} (h : checkedTwin i = some j) (s : State) (data : List Byte) :
    commandBody i s data = commandBody j s data := by
  cases i <;> simp [checkedTwin] at h <;> subst h <;> rfl

theorem checkedTwin_isChecked {i j : Instr} (h : checkedTwin i = some j) :
    isChecked i = false ∧ isChecked j = true := by
  cases i <;> simp [checkedTwin] at h <;> subst h <;> exact ⟨rfl, rfl⟩

end Sys2Proof.Machine
end

