-- ==== Sys2Proof/Laws/Checksum.lean ====
section
/-! SUPPORT. Facts of the bytes of a word, of the CRC loop (R101) and of the byte sum (R103). -/

namespace Sys2Proof.Machine

/-! ### Bytes of a word -/

theorem lowByte_eq_extract (v : Word) : lowByte v = v.extractLsb' 0 8 := by
  apply BitVec.eq_of_toNat_eq; simp [lowByte]

theorem highByte_eq_extract (v : Word) : highByte v = v.extractLsb' 8 8 := by
  apply BitVec.eq_of_toNat_eq; simp [highByte]

theorem toNat_lowByte (v : Word) : (lowByte v).toNat = v.toNat % 256 := by simp [lowByte]

theorem toNat_highByte (v : Word) : (highByte v).toNat = v.toNat / 256 := by
  have := v.isLt
  simp only [highByte, BitVec.toNat_setWidth, BitVec.toNat_ushiftRight, Nat.shiftRight_eq_div_pow]
  omega

@[simp] theorem toNat_zext16 (b : Byte) : (zext16 b).toNat = b.toNat := by
  have := b.isLt
  simp only [zext16, BitVec.toNat_setWidth]
  omega

@[simp] theorem lowByte_zext16 (b : Byte) : lowByte (zext16 b) = b := by
  apply BitVec.eq_of_toNat_eq
  have := b.isLt
  rw [toNat_lowByte, toNat_zext16]
  omega

theorem zext16_inj {a b : Byte} : zext16 a = zext16 b ↔ a = b :=
  ⟨fun h => by rw [← lowByte_zext16 a, h, lowByte_zext16], fun h => h ▸ rfl⟩

theorem lengthWord_toNat {n : Nat} (h : n < 65536) : (lengthWord n).toNat = n := by
  simp only [lengthWord, BitVec.toNat_ofNat]
  omega

/-! ### The CRC loop -/

theorem crcShift_of_even {c : Word} (h : c.getLsbD 0 = false) : crcShift c = c >>> 1 := by
  simp only [crcShift, h, Bool.false_eq_true, if_false]

theorem crcShift_top (c : Word) : (crcShift c).getLsbD 15 = c.getLsbD 0 := by
  unfold crcShift
  cases h : c.getLsbD 0 <;> simp

theorem crcShift_injective : Function.Injective crcShift := by
  intro c d h
  have h0 : c.getLsbD 0 = d.getLsbD 0 := by rw [← crcShift_top, ← crcShift_top, h]
  have h1 : c >>> 1 = d >>> 1 := by
    unfold crcShift at h
    rw [h0] at h
    cases hd : d.getLsbD 0 with
    | false => simpa only [hd, Bool.false_eq_true, if_false] using h
    | true =>
      have h' : (c >>> 1) ^^^ (0xA001 : Word) = (d >>> 1) ^^^ (0xA001 : Word) := by simpa only [hd, if_true] using h
      have := congrArg (· ^^^ (0xA001 : Word)) h'
      simpa [BitVec.xor_assoc] using this
  apply BitVec.eq_of_getLsbD_eq
  intro i hi
  cases i with
  | zero => exact h0
  | succ i =>
    have := congrArg (BitVec.getLsbD · i) h1
    simpa [Nat.add_comm] using this

theorem crcShift8_injective : Function.Injective crcShift8 := fun _ _ h => by
  simpa only [crcShift8, crcShift_injective.eq_iff] using h

theorem crcShift8_zero : crcShift8 0 = 0 := by decide

/-- Eight shifts of a value whose bits 7:0 are 0 never apply the constant (R102, proof sketch of (b)). -/
theorem crcShift8_of_low_zero {c : Word} (h : ∀ i < 8, c.getLsbD i = false) : crcShift8 c = c >>> 8 := by
  have step : ∀ k < 8, crcShift (c >>> k) = c >>> (k + 1) := fun k hk => by
    rw [crcShift_of_even (by simpa using h k hk), BitVec.shiftRight_add]
  have s0 := step 0 (by omega)
  simp only [BitVec.ushiftRight_zero, Nat.zero_add] at s0
  rw [crcShift8, s0, step 1 (by omega), step 2 (by omega), step 3 (by omega), step 4 (by omega), step 5 (by omega),
    step 6 (by omega), step 7 (by omega)]

/-- The value whose bits 15:8 are `b` and bits 7:0 are 0 turns into `b`. -/
theorem crcShift8_high (b : Byte) : crcShift8 (zext16 b <<< 8) = zext16 b := by
  rw [crcShift8_of_low_zero fun i hi => by simp [hi]]
  apply BitVec.eq_of_toNat_eq
  have := b.isLt
  simp only [BitVec.toNat_ushiftRight, BitVec.toNat_shiftLeft, toNat_zext16, Nat.shiftLeft_eq,
    Nat.shiftRight_eq_div_pow]
  omega

/-- The two bytes of a word put together again. -/
theorem word_eq_bytes (c : Word) : c = (zext16 (highByte c) <<< 8) ^^^ zext16 (lowByte c) := by
  apply BitVec.eq_of_getLsbD_eq
  intro i hi
  by_cases h : i < 8
  · simp [zext16, lowByte, h, hi]
  · have h8 : i - 8 < 8 := by omega
    simp [zext16, lowByte, highByte, h, h8, hi, show i - 8 < 16 by omega, show 8 + (i - 8) = i by omega]

@[simp] theorem crc16_nil : crc16 [] = 0xFFFF := rfl

theorem crc16_append (s t : List Byte) : crc16 (s ++ t) = t.foldl crcByte (crc16 s) := by
  simp [crc16, List.foldl_append]

/-- One byte more. -/
theorem crc16_concat (s : List Byte) (b : Byte) : crc16 (s ++ [b]) = crcByte (crc16 s) b := by simp [crc16_append]

/-- After the low byte of its own value the register holds the high byte (R102, R195). -/
theorem crcByte_lowByte (c : Word) : crcByte c (lowByte c) = zext16 (highByte c) := by
  have h : c ^^^ zext16 (lowByte c) = zext16 (highByte c) <<< 8 := by
    conv_lhs => rw [word_eq_bytes c]
    rw [BitVec.xor_assoc, ← word_eq_bytes c]
    simp
  rw [crcByte, h, crcShift8_high]

/-! ### The byte sum -/

theorem foldl_add_eq (s : List Byte) (t : Byte) : s.foldl (· + ·) t = t + s.foldl (· + ·) 0 := by
  induction s generalizing t with
  | nil => simp
  | cons b s ih => rw [List.foldl_cons, List.foldl_cons, ih, ih (0 + b)]; simp [BitVec.add_assoc]

theorem toNat_foldl_add (s : List Byte) : (s.foldl (· + ·) (0 : Byte)).toNat = (s.map BitVec.toNat).sum % 256 := by
  induction s with
  | nil => rfl
  | cons b s ih =>
    rw [List.foldl_cons, foldl_add_eq, BitVec.toNat_add, ih, List.map_cons, List.sum_cons]
    simp

end Sys2Proof.Machine
end

