-- ==== Sys2Proof/Laws/Operands.lean ====
section
/-! SUPPORT. Facts of indexing, of hex digits (R8), and of the RTU length function (R122). -/

namespace Sys2Proof.Machine

/-! ### Indexing -/

theorem byteAt_eq_getD (s : List Byte) (i : Nat) : byteAt s i = s.getD i 0 := rfl

theorem getElem?_eq_byteAt {s : List Byte} {i : Nat} (h : i < s.length) : s[i]? = some (byteAt s i) := by
  simp [byteAt, h]

theorem getElem?_eq_some_iff_byteAt {s : List Byte} {i : Nat} (h : i < s.length) (b : Byte) :
    s[i]? = some b ↔ byteAt s i = b := by
  simp [getElem?_eq_byteAt h]

theorem byteAt_take {s : List Byte} {i k : Nat} (h : i < k) : byteAt (s.take k) i = byteAt s i := by
  simp [byteAt, List.getD_eq_getElem?_getD, h]

theorem byteAt_append_left {s : List Byte} {i : Nat} (h : i < s.length) (t : List Byte) :
    byteAt (s ++ t) i = byteAt s i := by
  simp [byteAt, List.getD_eq_getElem?_getD, List.getElem?_append_left h]

/-! ### Hex digits -/

theorem isHex_hexChar {n : Nat} (h : n < 16) : isHex (hexChar n) = true := by
  revert h; revert n; decide

theorem hexVal_hexChar {n : Nat} (h : n < 16) : hexVal (hexChar n) = n := by
  revert h; revert n; decide

theorem hexChar_ne_cr {n : Nat} (h : n < 16) : hexChar n ≠ chCR := by
  revert h; revert n; decide

theorem hexVal_lt {b : Byte} (h : isHex b = true) : hexVal b < 16 := by
  simp only [isHex, Bool.or_eq_true, Bool.and_eq_true, decide_eq_true_eq] at h
  unfold hexVal
  split <;> omega

theorem hexChar_hexVal {b : Byte} (h : isHex b = true) : hexChar (hexVal b) = b := by
  simp only [isHex, Bool.or_eq_true, Bool.and_eq_true, decide_eq_true_eq] at h
  apply BitVec.eq_of_toNat_eq
  unfold hexChar hexVal
  simp only [BitVec.toNat_ofNat]
  split <;> split <;> omega

theorem isHex_cr : isHex chCR = false := by decide

theorem toNat_hexPair {h l : Byte} (hh : isHex h = true) (hl : isHex l = true) :
    (hexPair h l).toNat = 16 * hexVal h + hexVal l := by
  have := hexVal_lt hh
  have := hexVal_lt hl
  simp only [hexPair, BitVec.toNat_ofNat]
  omega

/-- Decoding the two characters of a byte gives the byte (R8, R43). -/
theorem hexPair_hexChar (b : Byte) : hexPair (hexChar (b.toNat / 16)) (hexChar (b.toNat % 16)) = b := by
  have := b.isLt
  apply BitVec.eq_of_toNat_eq
  rw [toNat_hexPair (isHex_hexChar (by omega)) (isHex_hexChar (by omega)), hexVal_hexChar (by omega),
    hexVal_hexChar (by omega)]
  omega

/-- The two characters of a decoded byte are the characters it was decoded from. -/
theorem hexChars_hexPair {h l : Byte} (hh : isHex h = true) (hl : isHex l = true) : hexChars (hexPair h l) = [h, l] := by
  have h1 := hexVal_lt hh
  have h2 := hexVal_lt hl
  rw [hexChars, toNat_hexPair hh hl, show (16 * hexVal h + hexVal l) / 16 = hexVal h by omega,
    show (16 * hexVal h + hexVal l) % 16 = hexVal l by omega, hexChar_hexVal hh, hexChar_hexVal hl]

theorem length_flatMap_hexChars (s : List Byte) : (s.flatMap hexChars).length = 2 * s.length := by
  induction s with
  | nil => rfl
  | cons b s ih => simp only [List.flatMap_cons, List.length_append, ih, List.length_cons, hexChars]; simp; omega

/-- The characters of byte j stand at 2j and 2j+1. -/
theorem getElem?_flatMap_hexChars (s : List Byte) (j : Nat) :
    (s.flatMap hexChars)[2 * j]? = s[j]?.map (fun b => hexChar (b.toNat / 16)) ∧
      (s.flatMap hexChars)[2 * j + 1]? = s[j]?.map (fun b => hexChar (b.toNat % 16)) := by
  induction s generalizing j with
  | nil => simp
  | cons b s ih =>
    cases j with
    | zero => simp [hexChars]
    | succ j =>
      have := ih j
      simp only [List.flatMap_cons, hexChars, List.cons_append, List.nil_append,
        show 2 * (j + 1) = 2 * j + 1 + 1 by omega, List.getElem?_cons_succ]
      exact this

/-! ### The RTU length -/

/-- The function codes of the table of R122, and exception codes: those whose length the frame itself gives. -/
def KnownCode (fc : Byte) : Prop := shapeOf fc ≠ .unknown

/-- A PDU has its function code at least (R122: L ≥ 1), and the byte that gives its length lies before the trailer. -/
theorem rtuPduLen_pos {dir : Dir} {data : List Byte} {len : Nat} (h : rtuPduLen dir data = some len) : 1 ≤ len := by
  unfold rtuPduLen at h
  split at h <;> first | (split at h <;> simp at h <;> omega) | (simp at h; omega)

/-- The length depends only on address, PDU and the number of live bytes; for the codes of the table not on that number. -/
theorem rtuPduLen_congr {dir : Dir} {data data' : List Byte} {len : Nat} (h : rtuPduLen dir data = some len)
    (hl : len + 1 ≤ data.length) (htake : data'.take (len + 1) = data.take (len + 1))
    (hk : KnownCode (byteAt data 1) ∨ data'.length = data.length) : rtuPduLen dir data' = some len := by
  have hpos := rtuPduLen_pos h
  have hlen : len + 1 ≤ data'.length := by
    have := congrArg List.length htake
    simp only [List.length_take] at this
    omega
  have hb : ∀ i < len + 1, byteAt data' i = byteAt data i := fun i hi => by
    rw [← byteAt_take hi, htake, byteAt_take hi]
  have h1 := hb 1 (by omega)
  unfold rtuPduLen at h ⊢
  rw [h1]
  cases hs : shapeOf (byteAt data 1) <;> cases dir <;> simp only [hs] at h ⊢ <;> try exact h
  · split at h
    · simp at h
    · simp only [Option.some.injEq] at h
      rw [if_neg (by omega), hb 2 (by omega), h]
  · split at h
    · simp at h
    · simp only [Option.some.injEq] at h
      rw [if_neg (by omega), hb 6 (by omega), h]
  all_goals
    rcases hk with hk | hk
    · exact absurd hs hk
    · rw [hk]; exact h

end Sys2Proof.Machine
end

