-- ==== Sys2Proof/Laws/Ascii.lean ====
section
/-! SUPPORT. What the ASCII parser and encoder can do (R142 to R144, R146). -/

namespace Sys2Proof.Machine

/-! ### The scan -/

/-- The loop of R142 passes over a hex pair. -/
theorem scanPairs_hex {h l : Byte} (hh : isHex h = true) (hl : isHex l = true) (rest : List Byte) (m : Nat) :
    scanPairs (h :: l :: rest) m = scanPairs rest (m + 1) := by
  have hcr : h ≠ chCR := fun he => by simp [he, isHex_cr] at hh
  simp [scanPairs, hcr, hh, hl]

/-- The loop passes over the characters of whole bytes. -/
theorem scanPairs_flatMap (s rest : List Byte) (m : Nat) :
    scanPairs (s.flatMap hexChars ++ rest) m = scanPairs rest (m + s.length) := by
  induction s generalizing m with
  | nil => rfl
  | cons b s ih =>
    have := b.isLt
    simp only [List.flatMap_cons, hexChars, List.cons_append, List.nil_append]
    rw [scanPairs_hex (isHex_hexChar (by omega)) (isHex_hexChar (by omega)), ih, List.length_cons]
    congr 1
    omega

/-- The terminator, after `m` pairs. -/
theorem scanPairs_crlf (rest : List Byte) (m : Nat) :
    scanPairs (chCR :: chLF :: rest) m = if m < 3 then .error .lengthMismatch else .ok m := by
  simp [scanPairs]

/-- The scan's errors (R142, R145). -/
theorem scanPairs_error {s : List Byte} {m : Nat} {k : ErrorKind} (h : scanPairs s m = .error k) :
    k = .bufferTooShort ∨ k = .lengthMismatch ∨ k = .invalidHexDigit := by
  induction s, m using scanPairs.induct with
  | case7 l rest m hlf hm => simp [scanPairs, hlf, hm] at h
  | case10 h' l rest m hcr hhex hl ih =>
    rw [scanPairs_hex (by simpa using hhex) (by simpa using hl)] at h
    exact ih h
  | _ => simp_all [scanPairs]

theorem asciiScan_error {data : List Byte} {k : ErrorKind} (h : asciiScan data = .error k) :
    k = .bufferTooShort ∨ k = .lengthMismatch ∨ k = .invalidHexDigit := by
  cases data with
  | nil => simp [asciiScan] at h; simp [← h]
  | cons b rest =>
    simp only [asciiScan] at h
    split at h
    · simp at h; simp [← h]
    · exact scanPairs_error h

/-- What the loop accepts: from `m` pairs on, further pairs of hex digits up to `n` in all, then CR, LF. -/
theorem scanPairs_ok {s : List Byte} {m n : Nat} :
    scanPairs s m = .ok n ↔
      ∃ pairs rest, s = pairs ++ chCR :: chLF :: rest ∧ pairs.length = 2 * (n - m) ∧ m ≤ n ∧ 3 ≤ n ∧
        ∀ b ∈ pairs, isHex b = true := by
  constructor
  · intro h
    induction s, m using scanPairs.induct generalizing n with
    | case1 m => simp [scanPairs] at h
    | case2 m => simp [scanPairs] at h
    | case3 h' m hcr hhex => simp [scanPairs, hcr, hhex] at h
    | case4 h' m hcr hhex => simp [scanPairs, hcr, hhex] at h
    | case5 l rest m hlf => simp [scanPairs, hlf] at h
    | case6 l rest m hlf hm => simp [scanPairs, hm, not_not.1 hlf] at h
    | case7 l rest m hlf hm =>
      simp only [scanPairs, hlf, hm, if_true, if_false, Except.ok.injEq] at h
      subst h
      exact ⟨[], rest, by simp [not_not.1 hlf], by simp, le_refl _, by omega, by simp⟩
    | case8 h' l rest m hcr hhex => simp [scanPairs, hcr, hhex] at h
    | case9 h' l rest m hcr hhex hl => simp [scanPairs, hcr, hhex, hl] at h
    | case10 h' l rest m hcr hhex hl ih =>
      have hh : isHex h' = true := by simpa using hhex
      have hl' : isHex l = true := by simpa using hl
      rw [scanPairs_hex hh hl'] at h
      obtain ⟨pairs, r, hs, hlen, hm, h3, hall⟩ := ih h
      refine ⟨h' :: l :: pairs, r, by simp [hs], by simp [hlen]; omega, by omega, h3, ?_⟩
      intro b hb
      simp only [List.mem_cons] at hb
      rcases hb with rfl | rfl | hb
      · exact hh
      · exact hl'
      · exact hall b hb
  · rintro ⟨pairs, rest, rfl, hlen, hm, h3, hall⟩
    induction hk : n - m generalizing pairs m with
    | zero =>
      have : pairs = [] := List.eq_nil_of_length_eq_zero (by omega)
      subst this
      rw [List.nil_append, scanPairs_crlf, if_neg (by omega)]
      congr 1
      omega
    | succ k ih =>
      match pairs, hlen with
      | [], hlen => simp at hlen; omega
      | [_], hlen => simp at hlen; omega
      | h :: l :: pairs, hlen =>
        simp only [List.length_cons] at hlen
        rw [List.cons_append, List.cons_append, scanPairs_hex (hall h (by simp)) (hall l (by simp))]
        exact ih pairs (by omega) (by omega) (fun b hb => hall b (by simp [hb])) (by omega)

/-- What the scan accepts (R142): `:`, m hex pairs, CR, LF, and then anything. -/
theorem asciiScan_ok {data : List Byte} {m : Nat} :
    asciiScan data = .ok m ↔
      ∃ pairs rest, data = chColon :: (pairs ++ chCR :: chLF :: rest) ∧ pairs.length = 2 * m ∧ 3 ≤ m ∧
        ∀ b ∈ pairs, isHex b = true := by
  cases data with
  | nil => simp [asciiScan]
  | cons b rest =>
    simp only [asciiScan]
    by_cases hb : b = chColon
    · subst hb
      simp only [ne_eq, not_true_eq_false, if_false, scanPairs_ok, Nat.sub_zero, Nat.zero_le, true_and,
        List.cons.injEq]
    · simp only [ne_eq, hb, not_false_eq_true, if_true, reduceCtorEq, List.cons.injEq, false_and,
        exists_const, not_false_eq_true]

/-- The loop passes over `n` pairs of hex digits, whatever follows them. -/
theorem scanPairs_append {pairs : List Byte} {n : Nat} (hp : pairs.length = 2 * n) (hh : ∀ b ∈ pairs, isHex b = true)
    (rest : List Byte) (m : Nat) : scanPairs (pairs ++ rest) m = scanPairs rest (m + n) := by
  induction n generalizing pairs m with
  | zero =>
    obtain rfl : pairs = [] := List.eq_nil_of_length_eq_zero (by omega)
    rfl
  | succ n ih =>
    match pairs, hp with
    | [], hp => simp at hp
    | [_], hp => simp at hp; omega
    | h :: l :: pairs, hp =>
      simp only [List.length_cons] at hp
      rw [List.cons_append, List.cons_append, scanPairs_hex (hh h (by simp)) (hh l (by simp)),
        ih (by omega) (fun b hb => hh b (by simp [hb]))]
      congr 1
      omega

/-- The scan after `:` and `n` pairs of hex digits: what it answers depends on the bytes from index 2n+1 on. -/
theorem asciiScan_skip {data : List Byte} {n : Nat} (hl : 1 + 2 * n ≤ data.length) (h0 : byteAt data 0 = chColon)
    (hh : ∀ j, 1 ≤ j → j ≤ 2 * n → isHex (byteAt data j) = true) :
    asciiScan data = scanPairs (data.drop (1 + 2 * n)) n := by
  cases data with
  | nil => simp at hl
  | cons b rest =>
    obtain rfl : b = chColon := by simpa [byteAt] using h0
    simp only [List.length_cons] at hl
    have hp : (rest.take (2 * n)).length = 2 * n := by simp; omega
    have hex : ∀ b ∈ rest.take (2 * n), isHex b = true := fun b hb => by
      obtain ⟨j, hj, rfl⟩ := List.mem_iff_getElem.1 hb
      have := hh (j + 1) (by omega) (by omega)
      simpa [byteAt, show j < rest.length by omega] using this
    have := scanPairs_append hp hex (rest.drop (2 * n)) 0
    rw [List.take_append_drop, Nat.zero_add] at this
    simp only [asciiScan, ne_eq, not_true_eq_false, if_false, this, Nat.add_comm 1, List.drop_succ_cons]

/-! ### Decoding in place -/

/-- The bytes that `count` pairs of characters from step `k` on decode to, as the window stands. -/
def pairsFrom (data : List Byte) (k : Nat) : Nat → List Byte
  | 0 => []
  | count + 1 => hexPair (byteAt data (1 + 2 * k)) (byteAt data (2 + 2 * k)) :: pairsFrom data (k + 1) count

@[simp] theorem length_pairsFrom (data : List Byte) (k count : Nat) : (pairsFrom data k count).length = count := by
  induction count generalizing k with
  | zero => rfl
  | succ n ih => simp [pairsFrom, ih]

theorem getElem?_pairsFrom (data : List Byte) (k count i : Nat) (h : i < count) :
    (pairsFrom data k count)[i]? =
      some (hexPair (byteAt data (1 + 2 * (k + i))) (byteAt data (2 + 2 * (k + i)))) := by
  induction count generalizing k i with
  | zero => omega
  | succ n ih =>
    cases i with
    | zero => simp [pairsFrom]
    | succ i =>
      rw [pairsFrom, List.getElem?_cons_succ, ih (k + 1) i (by omega)]
      simp only [show k + 1 + i = k + (i + 1) by omega]

/-- The loop of R144 writes what the characters at the start decode to: "no step overwrites a character a later step still
needs". `data` are the characters; the cells from `1+2k` on still hold them. -/
theorem decodeInPlace_eq {w : Memory} {data : List Byte} {k count : Nat}
    (h : ∀ i, 1 + 2 * k ≤ i → i < 1 + 2 * (k + count) → w.read i = some (byteAt data i)) :
    decodeInPlace w k count = some (w.writeBytes (1 + k) (pairsFrom data k count)) := by
  induction count generalizing w k with
  | zero => rfl
  | succ n ih =>
    rw [decodeInPlace, h (1 + 2 * k) (by omega) (by omega), h (2 + 2 * k) (by omega) (by omega)]
    simp only [pairsFrom, Memory.writeBytes, show 1 + k + 1 = 1 + (k + 1) by omega]
    refine ih fun i h1 h2 => ?_
    rw [Memory.read_write_ne _ _ (by omega)]
    exact h i (by omega) (by omega)

/-- `PASC` after its prologue, where the scan succeeds: the decoded bytes, the window, and the two ends (R143). -/
theorem parseAscii_scanned {s : State} {data : List Byte} {m : Nat} (hr : Ready s data) (hs : asciiScan data = .ok m) :
    parseAscii s data =
      let d := pairsFrom data 0 m
      ({ s with inW := s.inW.writeBytes 1 d },
        if byteAt d (m - 1) ≠ lrc (d.take (m - 1)) then .raise .checksumMismatch
        else
          .done
            { addr := zext16 (byteAt d 0), pduOff := 2, pduLen := lengthWord (m - 2),
              frameLen := lengthWord (2 * m + 3) }) := by
  obtain ⟨pairs, rest, hd, hp, h3, hall⟩ := asciiScan_ok.1 hs
  have hlen : 2 * m + 3 ≤ data.length := by
    rw [hd]; simp only [List.length_cons, List.length_append]; omega
  have hdec : decodeInPlace s.inW 0 m = some (s.inW.writeBytes (1 + 0) (pairsFrom data 0 m)) :=
    decodeInPlace_eq fun i h1 h2 => by
      rw [hr.read (by omega), getElem?_eq_byteAt (by omega)]
  have hb : (s.inW.writeBytes 1 (pairsFrom data 0 m)).bytes 1 m = some (pairsFrom data 0 m) := by
    have := Memory.bytes_writeBytes s.inW 1 (pairsFrom data 0 m)
    rwa [length_pairsFrom] at this
  simp only [parseAscii, hs, hdec, Nat.add_zero, hb]
  split <;> rfl

theorem parseAscii_error {s : State} {data : List Byte} {k : ErrorKind} (hs : asciiScan data = .error k) :
    parseAscii s data = (s, .raise k) := by
  simp only [parseAscii, hs]

/-! ### The encoder -/

@[simp] theorem length_asciiFrame (a : Byte) (pdu : List Byte) : (asciiFrame a pdu).length = 2 * pdu.length + 7 := by
  simp only [asciiFrame, List.length_cons, List.length_append, length_flatMap_hexChars, List.length_nil]
  omega

theorem encodeAscii_short {s : State} {data : List Byte} (h : s.outCap.toNat < 2 * data.length + 7) :
    encodeAscii s data = (s, .raise .insufficientCapacity) := by
  simp [encodeAscii, h]

theorem encodeAscii_fits {s : State} {data : List Byte} (h : 2 * data.length + 7 ≤ s.outCap.toNat) :
    encodeAscii s data =
      ({ s with outW := s.outW.writeBytes 0 (asciiFrame s.unit data) },
        .done { outLen := lengthWord (2 * data.length + 7) }) := by
  simp [encodeAscii, Nat.not_lt.2 h]

end Sys2Proof.Machine
end

