-- ==== Sys2Proof/Laws/Rtu.lean ====
section
/-! SUPPORT. What the RTU parser and encoder can do (R123, R125). -/

namespace Sys2Proof.Machine

/-- The whole frame is there: function code, a length, address, PDU and trailer (R123). -/
def FrameThere (dir : Dir) (data : List Byte) (len : Nat) : Prop :=
  2 ≤ data.length ∧ rtuPduLen dir data = some len ∧ len + 3 ≤ data.length

/-- The trailer of a PDU of `len` bytes is right (R123). -/
def TrailerRight (data : List Byte) (len : Nat) : Prop :=
  byteAt data (len + 1) = lowByte (crc16 (data.take (len + 1))) ∧
    byteAt data (len + 2) = highByte (crc16 (data.take (len + 1)))

theorem parseRtu_there {dir : Dir} {data : List Byte} {len : Nat} (h : FrameThere dir data len)
    (ht : TrailerRight data len) :
    parseRtu dir data =
      .done
        { addr := zext16 (byteAt data 0), pduOff := 1, pduLen := lengthWord len, frameLen := lengthWord (len + 3) } := by
  obtain ⟨h2, hl, hn⟩ := h
  simp only [parseRtu, if_neg (Nat.not_lt.2 h2), hl, if_neg (Nat.not_lt.2 hn), ht.1, ht.2, ne_eq, not_true_eq_false,
    or_self, if_false]

theorem parseRtu_corrupt {dir : Dir} {data : List Byte} {len : Nat} (h : FrameThere dir data len)
    (ht : ¬ TrailerRight data len) : parseRtu dir data = .raise .checksumMismatch := by
  obtain ⟨h2, hl, hn⟩ := h
  simp only [parseRtu, if_neg (Nat.not_lt.2 h2), hl, if_neg (Nat.not_lt.2 hn)]
  exact if_pos (by simpa only [TrailerRight, Classical.not_and_iff_not_or_not] using ht)

theorem parseRtu_short {dir : Dir} {data : List Byte} (h : ¬ ∃ len, FrameThere dir data len) :
    parseRtu dir data = .raise .bufferTooShort := by
  unfold parseRtu
  split
  · rfl
  · split
    · rfl
    · rename_i h2 len hl
      rw [if_pos]
      by_contra hn
      exact h ⟨len, by omega, hl, by omega⟩

/-- If the parser ends `done`, the frame is there and its trailer is right. -/
theorem parseRtu_done {dir : Dir} {data : List Byte} {r : Results} (h : parseRtu dir data = .done r) :
    ∃ len, FrameThere dir data len ∧ TrailerRight data len ∧
      r = { addr := zext16 (byteAt data 0), pduOff := 1, pduLen := lengthWord len, frameLen := lengthWord (len + 3) } := by
  by_cases hf : ∃ len, FrameThere dir data len
  · obtain ⟨len, hf⟩ := hf
    by_cases ht : TrailerRight data len
    · rw [parseRtu_there hf ht] at h
      exact ⟨len, hf, ht, by simpa using h.symm⟩
    · simp [parseRtu_corrupt hf ht] at h
  · simp [parseRtu_short hf] at h

/-- The parser's errors (R123, R127). -/
theorem parseRtu_raise {dir : Dir} {data : List Byte} {k : ErrorKind} (h : parseRtu dir data = .raise k) :
    (k = .bufferTooShort ∧ ¬ ∃ len, FrameThere dir data len) ∨
      (k = .checksumMismatch ∧ ∃ len, FrameThere dir data len ∧ ¬ TrailerRight data len) := by
  by_cases hf : ∃ len, FrameThere dir data len
  · obtain ⟨len, hf⟩ := hf
    by_cases ht : TrailerRight data len
    · simp [parseRtu_there hf ht] at h
    · rw [parseRtu_corrupt hf ht] at h
      exact .inr ⟨by simpa using h.symm, len, hf, ht⟩
  · rw [parseRtu_short hf] at h
    exact .inl ⟨by simpa using h.symm, hf⟩

theorem parseRtu_ne_noValue (dir : Dir) (data : List Byte) : parseRtu dir data ≠ .noValue := by
  by_cases hf : ∃ len, FrameThere dir data len
  · obtain ⟨len, hf⟩ := hf
    by_cases ht : TrailerRight data len
    · simp [parseRtu_there hf ht]
    · simp [parseRtu_corrupt hf ht]
  · simp [parseRtu_short hf]

theorem FrameThere.unique {dir : Dir} {data : List Byte} {m n : Nat} (hm : FrameThere dir data m)
    (hn : FrameThere dir data n) : m = n := by
  simpa using hm.2.1.symm.trans hn.2.1

/-! ### The encoder -/

@[simp] theorem length_rtuFrame (a : Byte) (pdu : List Byte) : (rtuFrame a pdu).length = pdu.length + 3 := by
  simp [rtuFrame]

theorem encodeRtu_short {s : State} {data : List Byte} (h : s.outCap.toNat < data.length + 3) :
    encodeRtu s data = (s, .raise .insufficientCapacity) := by
  simp [encodeRtu, h]

theorem encodeRtu_fits {s : State} {data : List Byte} (h : data.length + 3 ≤ s.outCap.toNat) :
    encodeRtu s data =
      ({ s with outW := s.outW.writeBytes 0 (rtuFrame s.unit data) },
        .done { outLen := lengthWord (data.length + 3) }) := by
  simp [encodeRtu, Nat.not_lt.2 h]

end Sys2Proof.Machine
end

