-- ==== Sys2Proof/Laws/Commands.lean ====
section
/-! SUPPORT. Once for all commands: what the pseudocode of a command can do when it ends `done`, and when it raises. -/

namespace Sys2Proof.Machine

/-- How a command can succeed: which results it produces, which window it writes, and from which operands. -/
inductive Success (s : State) (data : List Byte) : Instr → State → Results → Prop
  | checksum {i : Instr} (hi : i ∈ [.crc16, .lrc, .vcrc16, .vlrc]) (v : Word) : Success s data i s { result := v }
  | rtu {i : Instr} (dir : Dir) (hi : i = rtuCommand dir ∨ i = rtuCommandU dir) (len : Nat)
      (hf : FrameThere dir data len) (ht : TrailerRight data len) :
      Success s data i s
        { addr := zext16 (byteAt data 0), pduOff := 1, pduLen := lengthWord len, frameLen := lengthWord (len + 3) }
  | ascii {i : Instr} (hi : i = .pasc ∨ i = .pascU) (m : Nat) (hs : asciiScan data = .ok m)
      (hl : byteAt (pairsFrom data 0 m) (m - 1) = lrc ((pairsFrom data 0 m).take (m - 1))) :
      Success s data i { s with inW := s.inW.writeBytes 1 (pairsFrom data 0 m) }
        { addr := zext16 (byteAt (pairsFrom data 0 m) 0), pduOff := 2, pduLen := lengthWord (m - 2),
          frameLen := lengthWord (2 * m + 3) }
  | encRtu {i : Instr} (hi : i = .ertu ∨ i = .ertuU) (hc : data.length + 3 ≤ s.outCap.toNat) :
      Success s data i { s with outW := s.outW.writeBytes 0 (rtuFrame s.unit data) }
        { outLen := lengthWord (data.length + 3) }
  | encAscii {i : Instr} (hi : i = .easc ∨ i = .eascU) (hc : 2 * data.length + 7 ≤ s.outCap.toNat) :
      Success s data i { s with outW := s.outW.writeBytes 0 (asciiFrame s.unit data) }
        { outLen := lengthWord (2 * data.length + 7) }

/-- If the pseudocode of a command ends `done`, it is one of the successes. -/
theorem commandBody_done {i : Instr} {s w : State} {data : List Byte} {r : Results} (hr : Ready s data)
    (h : commandBody i s data = (w, .done r)) : Success s data i w r := by
  have rtu : ∀ dir, (i = rtuCommand dir ∨ i = rtuCommandU dir) → (s, parseRtu dir data) = (w, .done r) →
      Success s data i w r := fun dir hi hp => by
    simp only [Prod.mk.injEq] at hp
    obtain ⟨rfl, hp⟩ := hp
    obtain ⟨len, hf, ht, rfl⟩ := parseRtu_done hp
    exact .rtu dir hi len hf ht
  have ascii : (i = .pasc ∨ i = .pascU) → parseAscii s data = (w, .done r) → Success s data i w r := fun hi h => by
    cases hs : asciiScan data with
    | error k => simp [parseAscii_error hs] at h
    | ok m =>
      rw [parseAscii_scanned hr hs] at h
      dsimp only at h
      split at h
      · simp at h
      · rename_i hl
        simp only [Prod.mk.injEq, Ending.done.injEq] at h
        obtain ⟨rfl, rfl⟩ := h
        exact .ascii hi m hs (not_not.1 hl)
  have encRtu : (i = .ertu ∨ i = .ertuU) → encodeRtu s data = (w, .done r) → Success s data i w r := fun hi h => by
    by_cases hc : data.length + 3 ≤ s.outCap.toNat
    · rw [encodeRtu_fits hc] at h
      simp only [Prod.mk.injEq, Ending.done.injEq] at h
      obtain ⟨rfl, rfl⟩ := h
      exact .encRtu hi hc
    · simp [encodeRtu_short (Nat.not_le.1 hc)] at h
  have encAscii : (i = .easc ∨ i = .eascU) → encodeAscii s data = (w, .done r) → Success s data i w r := fun hi h => by
    by_cases hc : 2 * data.length + 7 ≤ s.outCap.toNat
    · rw [encodeAscii_fits hc] at h
      simp only [Prod.mk.injEq, Ending.done.injEq] at h
      obtain ⟨rfl, rfl⟩ := h
      exact .encAscii hi hc
    · simp [encodeAscii_short (Nat.not_le.1 hc)] at h
  have checksum : ∀ v, i ∈ [.crc16, .lrc, .vcrc16, .vlrc] → (s, Ending.done { result := v }) = (w, .done r) →
      Success s data i w r := fun v hi h => by
    simp only [Prod.mk.injEq, Ending.done.injEq] at h
    obtain ⟨rfl, rfl⟩ := h
    exact .checksum hi v
  cases i <;> simp only [commandBody] at h
  case crc16 => exact checksum _ (by simp) h
  case lrc => exact checksum _ (by simp) h
  case vcrc16 => exact checksum _ (by simp) h
  case vlrc => exact checksum _ (by simp) h
  case prtuReq => exact rtu .req (.inl rfl) h
  case prtuRsp => exact rtu .rsp (.inl rfl) h
  case pasc => exact ascii (.inl rfl) h
  case ertu => exact encRtu (.inl rfl) h
  case easc => exact encAscii (.inl rfl) h
  case prtuReqU => exact rtu .req (.inr rfl) h
  case prtuRspU => exact rtu .rsp (.inr rfl) h
  case pascU => exact ascii (.inr rfl) h
  case ertuU => exact encRtu (.inr rfl) h
  case eascU => exact encAscii (.inr rfl) h

/-- If the pseudocode of a command raises an error, no window has changed, but for the in-place decoding of the ASCII
parser before `ChecksumMismatch` (R172). -/
theorem commandBody_raise {i : Instr} {s w : State} {data : List Byte} {k : ErrorKind} (hr : Ready s data)
    (h : commandBody i s data = (w, .raise k)) :
    w = s ∨ ((i = .pasc ∨ i = .pascU) ∧ k = .checksumMismatch ∧
      ∃ m, asciiScan data = .ok m ∧ w = { s with inW := s.inW.writeBytes 1 (pairsFrom data 0 m) }) := by
  have ascii : (i = .pasc ∨ i = .pascU) → parseAscii s data = (w, .raise k) →
      w = s ∨ ((i = .pasc ∨ i = .pascU) ∧ k = .checksumMismatch ∧
        ∃ m, asciiScan data = .ok m ∧ w = { s with inW := s.inW.writeBytes 1 (pairsFrom data 0 m) }) := fun hi h => by
    cases hs : asciiScan data with
    | error k' =>
      rw [parseAscii_error hs] at h
      simp only [Prod.mk.injEq] at h
      exact .inl h.1.symm
    | ok m =>
      rw [parseAscii_scanned hr hs] at h
      dsimp only at h
      split at h
      · simp only [Prod.mk.injEq, Ending.raise.injEq] at h
        exact .inr ⟨hi, h.2.symm, m, rfl, h.1.symm⟩
      · simp at h
  cases i <;> simp only [commandBody] at h
  case pasc => exact ascii (.inl rfl) h
  case pascU => exact ascii (.inr rfl) h
  case ertu | ertuU =>
    by_cases hc : data.length + 3 ≤ s.outCap.toNat
    · simp [encodeRtu_fits hc] at h
    · rw [encodeRtu_short (Nat.not_le.1 hc)] at h
      exact .inl (Prod.mk.inj h).1.symm
  case easc | eascU =>
    by_cases hc : 2 * data.length + 7 ≤ s.outCap.toNat
    · simp [encodeAscii_fits hc] at h
    · rw [encodeAscii_short (Nat.not_le.1 hc)] at h
      exact .inl (Prod.mk.inj h).1.symm
  all_goals exact .inl (Prod.mk.inj h).1.symm

/-- After the prologue no cell without a value is met. -/
theorem commandBody_ne_noValue {i : Instr} {s w : State} {data : List Byte} (hr : Ready s data) :
    commandBody i s data ≠ (w, .noValue) := by
  have ascii : parseAscii s data ≠ (w, .noValue) := by
    cases hs : asciiScan data with
    | error k => simp [parseAscii_error hs]
    | ok m =>
      rw [parseAscii_scanned hr hs]
      dsimp only
      split <;> simp
  cases i <;> simp only [commandBody]
  case pasc => exact ascii
  case pascU => exact ascii
  case ertu | ertuU =>
    by_cases hc : data.length + 3 ≤ s.outCap.toNat
    · simp [encodeRtu_fits hc]
    · simp [encodeRtu_short (Nat.not_le.1 hc)]
  case easc | eascU =>
    by_cases hc : 2 * data.length + 7 ≤ s.outCap.toNat
    · simp [encodeAscii_fits hc]
    · simp [encodeAscii_short (Nat.not_le.1 hc)]
  case prtuReq | prtuReqU => exact fun h => parseRtu_ne_noValue _ _ (Prod.mk.inj h).2
  case prtuRsp | prtuRspU => exact fun h => parseRtu_ne_noValue _ _ (Prod.mk.inj h).2
  all_goals simp

/-- A command whose prologue passes ends `done` or raises. -/
theorem commandBody_cases (i : Instr) {s : State} {data : List Byte} (hr : Ready s data) :
    (∃ w r, commandBody i s data = (w, .done r)) ∨ ∃ w k, commandBody i s data = (w, .raise k) := by
  rcases h : commandBody i s data with ⟨w, r | k | _⟩
  · exact .inl ⟨w, r, rfl⟩
  · exact .inr ⟨w, k, rfl⟩
  · exact absurd h (commandBody_ne_noValue hr)

/-- A command is never refused. -/
theorem exec_ne_refused (i : Instr) (s : State) (r : Refusal) : exec i s ≠ .refused r := by
  rw [exec_eq]
  rcases prologue_cases s with hf | ⟨hf, hr⟩ | ⟨hf, hr, hl⟩ | ⟨data, hd⟩
  · simp [prologue_of_fault hf]
  · simp [prologue_of_not_inRange hf hr]
  · simp [prologue_of_not_allLive hf hr hl]
  · rw [prologue_of_ready hd, commandEnd]
    rcases commandBody_cases i hd with ⟨w, r, h⟩ | ⟨w, k, h⟩ <;> rw [h] <;> split <;> simp

/-- What a command can leave: the frame of every command (R171, R172). -/
theorem exec_next_frame {i : Instr} {s t : State} (h : exec i s = .next t) :
    t.cfg = s.cfg ∧ t.cmd = s.cmd ∧ t.inLen = s.inLen ∧ t.outCap = s.outCap ∧ t.unit = s.unit ∧ t.fault = s.fault ∧
      t.host = s.host := by
  rcases exec_next h with ⟨-, -, rfl⟩ | ⟨data, hr, ⟨w, r, hb, rfl⟩ | ⟨-, w, k, hb, rfl⟩⟩
  · simp
  · cases commandBody_done hr hb <;> simp
  · rcases commandBody_raise hr hb with rfl | ⟨-, -, m, -, rfl⟩ <;> simp

end Sys2Proof.Machine
end

