-- ==== Sys2Proof/Laws/Decode.lean ====
section
/-! SUPPORT. Facts of the fields of a command word (R60) and of register numbers (R13). -/

namespace Sys2Proof

/-- The fields of R60 are all the bits of a word. -/
theorem fieldsOfWord_injective : Function.Injective fieldsOfWord := by
  intro v w h
  simp only [fieldsOfWord, CmdFields.mk.injEq] at h
  obtain ⟨hz, hf, hu, he, ht, hd⟩ := h
  apply BitVec.eq_of_getLsbD_eq
  intro i hi
  by_cases h5 : 5 ≤ i
  · have := congrArg (BitVec.getLsbD · (i - 5)) hz
    simpa [show i - 5 < 11 by omega, show 5 + (i - 5) = i by omega] using this
  · interval_cases i <;> assumption

/-- The fields that R60 gives the word of each command. -/
theorem decodeFields_encode (i : Instr) : decodeFields (fieldsOfWord (encode i)) = .ok i := by cases i <;> decide

theorem decodeFields_ok {x : CmdFields} {i : Instr} (h : decodeFields x = .ok i) : x = fieldsOfWord (encode i) := by
  obtain ⟨z, f, u, e, t, d⟩ := x
  by_cases hz : z = 0
  · subst hz
    revert h
    cases f <;> cases u <;> cases e <;> cases t <;> cases d <;> cases i <;> decide
  · rw [decodeFields, if_pos hz] at h
    simp at h

/-- A field tuple decodes exactly when it is legal (R61). -/
theorem decodeFields_isOk (x : CmdFields) : (∃ i, decodeFields x = .ok i) ↔ x.legal = true := by
  obtain ⟨z, f, u, e, t, d⟩ := x
  by_cases hz : z = 0
  · subst hz
    cases f <;> cases u <;> cases e <;> cases t <;> cases d <;> simp [decodeFields, CmdFields.legal]
  · rw [decodeFields, if_pos hz]
    have hz' : ¬ z = 0#11 := hz
    simp [CmdFields.legal, hz']

theorem regOfNumber_regNumber (r : Reg) : regOfNumber (regNumber r) = some r := by cases r <;> rfl

theorem regOfNumber_eq_some {no : Nat} {r : Reg} (h : regOfNumber no = some r) : no = regNumber r := by
  unfold regOfNumber at h
  split at h <;> simp at h <;> subst h <;> rfl

theorem regOfNumber_eq_none {no : Nat} : regOfNumber no = none ↔ 12 ≤ no := by
  constructor
  · intro h
    by_contra hlt
    have : no < 12 := by omega
    interval_cases no <;> simp [regOfNumber] at h
  · intro h
    unfold regOfNumber
    split <;> first | omega | rfl

end Sys2Proof
end

