-- ==== Sys2Proof/Laws/PerInstr.lean ====
section
/-! SUPPORT. Statements for all instructions, one lemma per constructor. -/

namespace Sys2Proof.Laws.EncodesLegal

/-- The word of the instruction is legal (R61) and below 0x20 (bits 15:5 are 0). -/
def Statement (i : Instr) : Prop := (fieldsOfWord (encode i)).legal = true ∧ (encode i).toNat < 32

theorem crc16 : Statement .crc16 := by unfold Statement; decide
theorem lrc : Statement .lrc := by unfold Statement; decide
theorem vcrc16 : Statement .vcrc16 := by unfold Statement; decide
theorem vlrc : Statement .vlrc := by unfold Statement; decide
theorem prtuReq : Statement .prtuReq := by unfold Statement; decide
theorem prtuRsp : Statement .prtuRsp := by unfold Statement; decide
theorem pasc : Statement .pasc := by unfold Statement; decide
theorem ertu : Statement .ertu := by unfold Statement; decide
theorem easc : Statement .easc := by unfold Statement; decide
theorem prtuReqU : Statement .prtuReqU := by unfold Statement; decide
theorem prtuRspU : Statement .prtuRspU := by unfold Statement; decide
theorem pascU : Statement .pascU := by unfold Statement; decide
theorem ertuU : Statement .ertuU := by unfold Statement; decide
theorem eascU : Statement .eascU := by unfold Statement; decide

end Sys2Proof.Laws.EncodesLegal
end

