-- ==== Sys2Proof/Laws/Step.lean ====
section
/-! SUPPORT. What a step can do: the fault state, each line of the host's script, and a `CMD` write. -/

namespace Sys2Proof.Machine

theorem step_reset {s : State} (h : nextLine s = some .reset) : step s = .next (blockReset (advance s)) := by
  simp [step, hostStep, h]

/-- The fault state is stuck until a reset (R176). -/
theorem step_inFaultState {s : State} (hf : s.fault = true) (h : nextLine s ≠ some .reset) :
    step s = .fault .inFaultState := by
  unfold step hostStep
  split
  · exact absurd (by assumption) h
  · simp [hf, takeFault]
  · simp [hf, takeFault]

theorem step_line {s : State} {l : HostLine} (hf : s.fault = false) (h : nextLine s = some l) : step s = hostLine l s := by
  unfold step hostStep
  rw [h]
  cases l <;> simp [hf, hostLine]

theorem step_end {s : State} (hf : s.fault = false) (h : nextLine s = none) : step s = .next s := by
  simp [step, hostStep, h, hf]

theorem step_action {s : State} {a : HostAction} (hf : s.fault = false) (h : nextLine s = some (.action a)) :
    step s = hostAction a (advance s) := by
  rw [step_line hf h]; rfl

/-- A `CMD` write stores the word and runs the command it names (R14). -/
theorem step_cmd {s : State} {c : Word} (hf : s.fault = false) (h : nextLine s = some (.action (.setReg 0 c))) :
    step s = runCommand c { advance s with cmd := c } := by
  rw [step_action hf h]; rfl

theorem runCommand_ok {c : Word} {i : Instr} (h : decode c = .ok i) (s : State) : runCommand c s = exec i s := by
  simp [runCommand, h]

theorem runCommand_error {c : Word} {e : IllegalWord} (h : decode c = .error e) (s : State) :
    runCommand c s = illegalCommand s := by
  simp [runCommand, h]

/-- Once for every host action but the `CMD` write: what it can leave. -/
theorem hostAction_next {a : HostAction} {s t : State} (h : hostAction a s = .next t) :
    (∃ v, a = .setReg 0 v ∧ runCommand v { s with cmd := v } = .next t) ∨
    (∃ no r v, a = .setReg no v ∧ regOfNumber no = some r ∧ r ≠ .cmd ∧ t = storeReg r v s) ∨
    (∃ x v, t = reply x v s) ∨
    (∃ k v, a = .setIn k v ∧ k < s.cfg.inSize ∧ t = { s with inW := s.inW.write k v }) ∨
    (∃ k v, a = .setOut k v ∧ k < s.cfg.outSize ∧ t = { s with outW := s.outW.write k v }) := by
  cases a with
  | setReg no v =>
    simp only [hostAction] at h
    split at h
    · simp at h
    · rename_i hreg
      have := regOfNumber_eq_some hreg
      subst this
      exact .inl ⟨v, rfl, h⟩
    · rename_i r hne hreg
      exact .inr (.inl ⟨no, r, v, rfl, hreg, fun hr => hne (by simp [hr]), by simpa using h.symm⟩)
  | getReg no =>
    simp only [hostAction] at h
    split at h
    · simp at h
    · exact .inr (.inr (.inl ⟨_, _, by simpa using h.symm⟩))
  | setIn k v =>
    simp only [hostAction] at h
    split at h
    · exact .inr (.inr (.inr (.inl ⟨k, v, rfl, by assumption, by simpa using h.symm⟩)))
    · simp at h
  | getIn k =>
    simp only [hostAction] at h
    split at h
    · split at h
      · simp at h
      · exact .inr (.inr (.inl ⟨_, _, by simpa using h.symm⟩))
    · simp at h
  | setOut k v =>
    simp only [hostAction] at h
    split at h
    · exact .inr (.inr (.inr (.inr ⟨k, v, rfl, by assumption, by simpa using h.symm⟩)))
    · simp at h
  | getOut k =>
    simp only [hostAction] at h
    split at h
    · split at h
      · simp at h
      · exact .inr (.inr (.inl ⟨_, _, by simpa using h.symm⟩))
    · simp at h

/-- Once for every step: if it answers a next state, it was a reset, a host action, or moved the host's position only. -/
theorem step_next {s t : State} (h : step s = .next t) :
    (nextLine s = some .reset ∧ t = blockReset (advance s)) ∨
    (s.fault = false ∧ ∃ a, nextLine s = some (.action a) ∧ hostAction a (advance s) = .next t) ∨
    (s.fault = false ∧ ∃ p, t = jumpTo p s) := by
  by_cases hr : nextLine s = some .reset
  · rw [step_reset hr] at h
    exact .inl ⟨hr, by simpa using h.symm⟩
  · by_cases hf : s.fault = true
    · simp [step_inFaultState hf hr] at h
    · have hf : s.fault = false := by simpa using hf
      cases hl : nextLine s with
      | none =>
        rw [step_end hf hl] at h
        exact .inr (.inr ⟨hf, s.host.pos, by simpa [jumpTo] using h.symm⟩)
      | some l =>
        rw [step_line hf hl] at h
        cases l with
        | action a => exact .inr (.inl ⟨hf, a, rfl, h⟩)
        | reset => exact absurd hl hr
        | ifEq x v p =>
          simp only [hostLine] at h
          split at h
          · simp at h
          · refine .inr (.inr ⟨hf, ?_⟩)
            split at h
            · exact ⟨p, by simpa using h.symm⟩
            · exact ⟨s.host.pos + 1, by simpa [advance, jumpTo] using h.symm⟩
        | goto p => exact .inr (.inr ⟨hf, p, by simpa [hostLine] using h.symm⟩)
        | expect x v => exact .inr (.inr ⟨hf, s.host.pos + 1, by simpa [hostLine, advance, jumpTo] using h.symm⟩)
        | halt => exact .inr (.inr ⟨hf, s.host.pos, by simpa [hostLine, jumpTo] using h.symm⟩)

end Sys2Proof.Machine
end

