-- ==== Sys2Proof/Tests/Slice0.lean ====
section
/-! SUPPORT. Tests of the model against the spec's own vectors (`spec/95_test_vectors.md`, worked out there from the rules)
and encodings (R60 to R63), the smoke tests of well-formedness, and one witness per statement that has hypotheses. -/

namespace Sys2Proof.Tests

-- One theorem after the other: their kernel evaluations side by side take a thread each.
set_option Elab.async false

open Sys2Proof Sys2Proof.Machine

/-! ### Well-formedness: each check refuses an ill-formed term -/

theorem test_wf_zero_field : CmdFields.legal ⟨8, false, false, false, false, false⟩ = false := by decide
theorem test_wf_checksum_unchecked : CmdFields.legal ⟨0, false, true, false, false, false⟩ = false := by decide
theorem test_wf_checksum_encode : CmdFields.legal ⟨0, false, false, true, false, false⟩ = false := by decide
theorem test_wf_direction_on_encode : CmdFields.legal ⟨0, true, false, true, false, true⟩ = false := by decide
theorem test_wf_direction_on_ascii : CmdFields.legal ⟨0, true, false, false, true, true⟩ = false := by decide
theorem test_wf_legal_fields : CmdFields.legal ⟨0, true, true, true, true, false⟩ = true := by decide
theorem test_wf_config_in_zero : Config.wf ⟨0, 32⟩ = false := by decide
theorem test_wf_config_in_large : Config.wf ⟨65536, 32⟩ = false := by decide
theorem test_wf_config_out_zero : Config.wf ⟨32, 0⟩ = false := by decide
theorem test_wf_config_out_large : Config.wf ⟨32, 65536⟩ = false := by decide
theorem test_wf_set_absent_register : HostAction.wf ⟨32, 16⟩ (.setReg 12 0) = false := by decide
theorem test_wf_get_absent_register : HostAction.wf ⟨32, 16⟩ (.getReg 12) = false := by decide
theorem test_wf_set_absent_in_cell : HostAction.wf ⟨32, 16⟩ (.setIn 32 0) = false := by decide
theorem test_wf_get_absent_in_cell : HostAction.wf ⟨32, 16⟩ (.getIn 32) = false := by decide
theorem test_wf_set_absent_out_cell : HostAction.wf ⟨32, 16⟩ (.setOut 16 0) = false := by decide
theorem test_wf_get_absent_out_cell : HostAction.wf ⟨32, 16⟩ (.getOut 16) = false := by decide
theorem test_wf_label_beyond_script : HostLine.wf ⟨32, 16⟩ 3 (.goto 4) = false := by decide
theorem test_wf_if_label_beyond_script : HostLine.wf ⟨32, 16⟩ 3 (.ifEq (.reg 1) 0 4) = false := by decide
theorem test_wf_line_with_bad_action : HostLine.wf ⟨32, 16⟩ 3 (.action (.getReg 12)) = false := by decide
theorem test_wf_memory_unsorted : ¬ Memory.wf [(1, 0), (0, 0)] := by decide
theorem test_wf_memory_repeated : ¬ Memory.wf [(1, 0), (1, 0)] := by decide

/-! ### Decoding: the word of every command, written out from R60 as zero, F U E T/V D/K -/

theorem test_decode_crc16 : decodeTableWord 16 0b00000000000_0_0_0_0_0 = some .crc16 := by decide
theorem test_decode_lrc : decodeTableWord 16 0b00000000000_0_0_0_0_1 = some .lrc := by decide
theorem test_decode_vcrc16 : decodeTableWord 16 0b00000000000_0_0_0_1_0 = some .vcrc16 := by decide
theorem test_decode_vlrc : decodeTableWord 16 0b00000000000_0_0_0_1_1 = some .vlrc := by decide
theorem test_decode_prtuReq : decodeTableWord 16 0b00000000000_1_0_0_0_0 = some .prtuReq := by decide
theorem test_decode_prtuRsp : decodeTableWord 16 0b00000000000_1_0_0_0_1 = some .prtuRsp := by decide
theorem test_decode_pasc : decodeTableWord 16 0b00000000000_1_0_0_1_0 = some .pasc := by decide
theorem test_decode_ertu : decodeTableWord 16 0b00000000000_1_0_1_0_0 = some .ertu := by decide
theorem test_decode_easc : decodeTableWord 16 0b00000000000_1_0_1_1_0 = some .easc := by decide
theorem test_decode_prtuReqU : decodeTableWord 16 0b00000000000_1_1_0_0_0 = some .prtuReqU := by decide
theorem test_decode_prtuRspU : decodeTableWord 16 0b00000000000_1_1_0_0_1 = some .prtuRspU := by decide
theorem test_decode_pascU : decodeTableWord 16 0b00000000000_1_1_0_1_0 = some .pascU := by decide
theorem test_decode_ertuU : decodeTableWord 16 0b00000000000_1_1_1_0_0 = some .ertuU := by decide
theorem test_decode_eascU : decodeTableWord 16 0b00000000000_1_1_1_1_0 = some .eascU := by decide

/-- The illegal words of vectors L2-10 rows 1 to 4. -/
theorem test_decode_illegal :
    [0x0013, 0x0004, 0x0100, 0x0015, 0x0017, 0x001B, 0x001D, 0x001F, 0x0008, 0xFFFF].all
      (fun w => decodeTableWord 16 w == none) = true := by decide

/-! ### A small state and what is read from an outcome -/

/-- An instance of 32 and 32 cells, `data` in IN from index 0, all of it live, `UNIT` and `OUT_CAP` as given. -/
def st (data : List Byte) (unit : Byte := 0) (cap : Word := 0) : State :=
  { State.resetWith ⟨32, 32⟩ with
    inW := Memory.writeBytes [] 0 data, inLen := BitVec.ofNat 16 data.length, unit := unit, outCap := cap }

/-- `s` with `lines` as the host's script. -/
def script (lines : List HostLine) (s : State) : State := { s with host := ⟨lines, 0, []⟩ }

/-- The next state, if the outcome is one. -/
def after : StepResult → Option State
  | .next t => some t
  | _ => none

/-- The fault, if the outcome is one. -/
def faultOf : StepResult → Option Fault
  | .fault f => some f
  | _ => none

/-- The refusal, if the outcome is one. -/
def refusalOf : StepResult → Option Refusal
  | .refused r => some r
  | _ => none

/-- `STATUS`, `RESULT`, `ADDR`, `PDU_OFF`, `PDU_LEN`, `FRAME_LEN`, `OUT_LEN` of the next state. -/
def ends (r : StepResult) : Option (List Nat) :=
  (after r).map fun t =>
    [t.status.toNat, t.result.toNat, t.addr.toNat, t.pduOff.toNat, t.pduLen.toNat, t.frameLen.toNat, t.outLen.toNat]

/-- The listed cells of IN and OUT of the next state. -/
def windows (r : StepResult) : Option (List Byte × List Byte) :=
  (after r).map fun t => (t.inW.map Prod.snd, t.outW.map Prod.snd)

/-- Frame F1 of L2-3. -/
def f1 : List Byte := [0x01, 0x03, 0x00, 0x00, 0x00, 0x01, 0x84, 0x0A]
/-- Frame F2 of L2-3. -/
def f2 : List Byte := [0x01, 0x03, 0x02, 0x12, 0x34, 0xB5, 0x33]
/-- The PDU of L2-4 row 1 and L2-7 row 1. -/
def pdu1 : List Byte := [0x03, 0x00, 0x00, 0x00, 0x01]
/-- Frame A1 of L2-6: `:010300000001FB` CR LF. -/
def a1 : List Byte :=
  [0x3A, 0x30, 0x31, 0x30, 0x33, 0x30, 0x30, 0x30, 0x30, 0x30, 0x30, 0x30, 0x31, 0x46, 0x42, 0x0D, 0x0A]
/-- The window after A1. -/
def a1After : List Byte :=
  [0x3A, 0x01, 0x03, 0x00, 0x00, 0x00, 0x01, 0xFB, 0x30, 0x30, 0x30, 0x30, 0x31, 0x46, 0x42, 0x0D, 0x0A]
/-- Frame E9 of L2-6: the LRC characters are `FA`. -/
def e9 : List Byte :=
  [0x3A, 0x30, 0x31, 0x30, 0x33, 0x30, 0x30, 0x30, 0x30, 0x30, 0x30, 0x30, 0x31, 0x46, 0x41, 0x0D, 0x0A]

/-! ### Commands: vectors of L2, two at most for each -/

/-- L2-1 row 9. -/
theorem test_crc16_request :
    ends (exec .crc16 (st [0x01, 0x03, 0x00, 0x00, 0x00, 0x01])) = some [0, 0x0A84, 0, 0, 0, 0, 0] := by
  decide +kernel

/-- L2-1 row 1. -/
theorem test_crc16_empty : ends (exec .crc16 (st [])) = some [0, 0xFFFF, 0, 0, 0, 0, 0] := by decide +kernel

/-- L2-2 row 9: the sum wraps. -/
theorem test_lrc_wraps :
    ends (exec .lrc (st [0xF7, 0x03, 0x13, 0x89, 0x00, 0x0A])) = some [0, 0x0060, 0, 0, 0, 0, 0] := by decide +kernel

/-- L2-2 row 4: two's complement, not ones' complement. -/
theorem test_lrc_ff : ends (exec .lrc (st [0xFF])) = some [0, 0x0001, 0, 0, 0, 0, 0] := by decide +kernel

/-- L2-2, `VCRC16` row 1. -/
theorem test_vcrc16_true : ends (exec .vcrc16 (st f1)) = some [0, 1, 0, 0, 0, 0, 0] := by decide +kernel

/-- L2-2, `VCRC16` row 4: a trailer with its bytes swapped is not accepted. -/
theorem test_vcrc16_swapped :
    ends (exec .vcrc16 (st [0x01, 0x03, 0x00, 0x00, 0x00, 0x01, 0x0A, 0x84])) = some [0, 0, 0, 0, 0, 0, 0] := by
  decide +kernel

/-- L2-2, `VLRC` row 1. -/
theorem test_vlrc_true :
    ends (exec .vlrc (st [0x01, 0x03, 0x00, 0x00, 0x00, 0x01, 0xFB])) = some [0, 1, 0, 0, 0, 0, 0] := by decide +kernel

/-- L2-2, `VLRC` row 3: no byte at all. -/
theorem test_vlrc_empty : ends (exec .vlrc (st [])) = some [0, 0, 0, 0, 0, 0, 0] := by decide +kernel

/-- L2-3 S6: write multiple registers, the byte count at index 6. -/
theorem test_prtuReq_write_multiple :
    ends (exec .prtuReq (st [0x11, 0x10, 0x00, 0x01, 0x00, 0x02, 0x04, 0x00, 0x0A, 0x01, 0x02, 0xC6, 0xF0])) =
      some [0, 0, 0x11, 1, 10, 13, 0] := by decide +kernel

/-- L2-3 T1: bytes after the frame. -/
theorem test_prtuReq_trailing_bytes :
    ends (exec .prtuReq (st (f1 ++ [0xAA, 0xBB]))) = some [0, 0, 0x01, 1, 5, 8, 0] := by decide +kernel

/-- L2-3 S2. -/
theorem test_prtuRsp_read : ends (exec .prtuRsp (st f2)) = some [0, 0, 0x01, 1, 4, 7, 0] := by decide +kernel

/-- L2-3 U2, n = 5: a partial frame of an unknown function code. -/
theorem test_prtuRsp_unknown_partial :
    ends (exec .prtuRsp (st [0x0A, 0x2B, 0x0E, 0x01, 0x00])) = some [3, 0, 0, 0, 0, 0, 0] := by decide +kernel

/-- L2-6 A1: results. -/
theorem test_pasc_request : ends (exec .pasc (st a1)) = some [0, 0, 0x01, 2, 5, 17, 0] := by decide +kernel

/-- L2-6 E9: decoded before the LRC is checked. -/
theorem test_pasc_mismatch_window :
    windows (exec .pasc (st e9)) =
      some ([0x3A, 0x01, 0x03, 0x00, 0x00, 0x00, 0x01, 0xFA, 0x30, 0x30, 0x30, 0x30, 0x31, 0x46, 0x41, 0x0D, 0x0A], []) := by
  decide +kernel

/-- L2-4 row 1. -/
theorem test_ertu_request : windows (exec .ertu (st pdu1 1 8)) = some (pdu1, f1) := by decide +kernel

/-- L2-4 row 2: one cell short, nothing written. -/
theorem test_ertu_short :
    ends (exec .ertu (st pdu1 1 7)) = some [5, 0, 0, 0, 0, 0, 0] ∧ windows (exec .ertu (st pdu1 1 7)) = some (pdu1, []) := by
  decide +kernel

/-- L2-7 row 5: letters. -/
theorem test_easc_letters :
    windows (exec .easc (st [0xCD, 0xEF] 0xAB 11)) =
      some ([0xCD, 0xEF], [0x3A, 0x41, 0x42, 0x43, 0x44, 0x45, 0x46, 0x39, 0x39, 0x0D, 0x0A]) := by decide +kernel

/-- L2-7 row 2: one cell short. -/
theorem test_easc_short : ends (exec .easc (st pdu1 1 16)) = some [5, 0, 0, 0, 0, 0, 0] := by decide +kernel

/-- L2-9 row 1. -/
theorem test_prtuReqU_request : ends (exec .prtuReqU (st f1)) = some [0, 0, 0x01, 1, 5, 8, 0] := by decide +kernel

/-- L2-9 row 2. -/
theorem test_prtuReqU_partial : faultOf (exec .prtuReqU (st (f1.take 7))) = some .uncheckedPrecondition := by
  decide +kernel

/-- L2-9 row 4. -/
theorem test_prtuRspU_read : ends (exec .prtuRspU (st f2)) = some [0, 0, 0x01, 1, 4, 7, 0] := by decide +kernel

/-- L2-9 row 6. -/
theorem test_pascU_request : windows (exec .pascU (st a1)) = some (a1After, []) := by decide +kernel

/-- L2-9 row 7: the window `PASC.U` left. -/
theorem test_pascU_again : faultOf (exec .pascU (st a1After)) = some .uncheckedPrecondition := by decide +kernel

/-- L2-9 row 9. -/
theorem test_ertuU_request :
    ends (exec .ertuU (st pdu1 1 8)) = some [0, 0, 0, 0, 0, 0, 8] ∧ windows (exec .ertuU (st pdu1 1 8)) = some (pdu1, f1) := by
  decide +kernel

/-- L2-9 row 10. -/
theorem test_ertuU_short : faultOf (exec .ertuU (st pdu1 1 7)) = some .uncheckedPrecondition := by decide +kernel

/-- L2-9 row 11. -/
theorem test_eascU_request : windows (exec .eascU (st pdu1 1 17)) = some (pdu1, a1) := by decide +kernel

/-- L2-9 row 12. -/
theorem test_eascU_short : faultOf (exec .eascU (st pdu1 1 16)) = some .uncheckedPrecondition := by decide +kernel

/-! ### The prologue and the host: vectors of L2-10 -/

/-- L2-10 row 7: `IllegalCommand` before `WindowOutOfRange`. -/
theorem test_illegal_before_range :
    ends (runCommand 0x0013 { State.resetWith ⟨8, 8⟩ with inLen := 9 }) = some [0xF0, 0, 0, 0, 0, 0, 0] := by decide +kernel

/-- L2-10 row 6: the range check of OUT also for a command that does not use OUT. -/
theorem test_range_of_out :
    ends (runCommand 0x0000 { State.resetWith ⟨8, 8⟩ with outCap := 9 }) = some [0xF1, 0, 0, 0, 0, 0, 0] := by decide +kernel

/-- L2-10 row 8. -/
theorem test_valueless_cell : faultOf (exec .crc16 { State.reset with inLen := 1 }) = some .valuelessCell := by
  decide +kernel

/-- L2-9 row 13: the range check of an unchecked command is an ordinary error. -/
theorem test_unchecked_out_of_range :
    ends (exec .prtuReqU { State.resetWith ⟨8, 8⟩ with inLen := 9 }) = some [0xF1, 0, 0, 0, 0, 0, 0] := by decide +kernel

/-- L2-10 row 12, the write: bits 15:8 of `UNIT` do not exist. -/
theorem test_set_unit :
    (after (step (script [.action (.setReg 4 0xFFFF)] State.reset))).map (readReg .unit) = some 0x00FF := by decide +kernel

/-- L2-10 row 11: a write to `STATUS` is ignored. -/
theorem test_set_status :
    (after (step (script [.action (.setReg 1 0)] { State.reset with status := 3 }))).map (readReg .status) = some 3 := by
  decide +kernel

/-- R190. -/
theorem test_reset_leaves_fault_state :
    (after (step (script [.reset] { st f1 with fault := true }))).map (fun t => (readReg .fault t, t.inW)) =
      some (0, []) := by decide +kernel

/-- R70, the pseudo forms, as the tuples program P1 of the vectors gives them. -/
theorem test_pseudo_forms :
    scriptCmd .ertu = .action (.setReg 0 0x0014) ∧
      scriptLoad 0 [0x03, 0x00] = [.action (.setIn 0 0x03), .action (.setIn 1 0x00)] := by decide

/-- The host's next step runs the word placed by the interface. -/
theorem test_withFetchWord :
    ends (step (State.reset.withFetchWord 16 0x0000)) = some [0, 0xFFFF, 0, 0, 0, 0, 0] := by decide +kernel

/-! ### Witnesses: for each statement with hypotheses, a state and operands that meet them -/

/-- Whether the outcome is a next state. -/
def isNext (r : StepResult) : Bool := (after r).isSome

/-- The next state, if the outcome is one. -/
def nextOf (r : StepResult) : State := (after r).getD State.reset

theorem eq_next {r : StepResult} (h : isNext r = true) : r = .next (nextOf r) := by
  cases r <;> simp [isNext, after] at h; rfl

theorem eq_fault {r : StepResult} {f : Fault} (h : faultOf r = some f) : r = .fault f := by
  cases r <;> simp [faultOf] at h; rw [h]

theorem eq_refused {r : StepResult} {f : Refusal} (h : refusalOf r = some f) : r = .refused f := by
  cases r <;> simp [refusalOf] at h; rw [h]

/-- A command ends in a next state with the given `STATUS`. -/
theorem exec_ends {i : Instr} {s : State} (b : Byte) (h : (after (exec i s)).map State.status = some b) :
    ∃ t, exec i s = .next t ∧ t.status = b := by
  cases hr : exec i s <;> simp [hr, after] at h
  exact ⟨_, rfl, h⟩

/-- The state after a command with the host's line `l` next. -/
def at1 (l : HostLine) : State := script [l] (st [0x01, 0x02])

theorem witness_StepRunsDecodedCommand :
    (at1 (.action (.setReg 0 0x0010))).fault = false ∧
      nextLine (at1 (.action (.setReg 0 0x0010))) = some (.action (.setReg 0 0x0010)) ∧ decode 0x0010 = .ok .prtuReq :=
  ⟨rfl, rfl, rfl⟩

theorem witness_IllegalWordIsReported :
    (at1 (.action (.setReg 0 0x0013))).fault = false ∧
      nextLine (at1 (.action (.setReg 0 0x0013))) = some (.action (.setReg 0 0x0013)) ∧
      ∀ i, ((0x0013 : Word), i) ∉ commandTable :=
  ⟨rfl, rfl, fun i => by cases i <;> decide⟩

theorem witness_PlacedWordRunsNext : State.reset.fault = false := rfl

/-- Both clauses, the first also from the fault state. -/
theorem witness_ResetIsTheOnlyWayOutOfTheFaultState :
    nextLine { at1 .reset with fault := true } = some .reset ∧
      ({ at1 .halt with fault := true } : State).fault = true ∧
      nextLine { at1 .halt with fault := true } ≠ some .reset := by decide

/-- The five clauses, the first at the register numbers 1, 5 and 11, the second at every number and with bits 7:0 set. -/
theorem witness_HostRegisterAccessRules :
    (∀ no ∈ [1, 5, 11], no ∈ [1, 5, 6, 7, 8, 9, 10, 11] ∧ (at1 (.action (.setReg no 0xFFFF))).fault = false ∧
      nextLine (at1 (.action (.setReg no 0xFFFF))) = some (.action (.setReg no 0xFFFF))) ∧
    (∀ no ∈ List.range 12, (at1 (.action (.getReg no))).fault = false ∧
      nextLine (at1 (.action (.getReg no))) = some (.action (.getReg no))) ∧
    ∀ no ∈ [2, 3, 4], (at1 (.action (.setReg no 0xFFFF))).fault = false ∧
      nextLine (at1 (.action (.setReg no 0xFFFF))) = some (.action (.setReg no 0xFFFF)) := by decide

theorem witness_UnitDropsItsHighBits :
    let s := script [.action (.setReg 4 0x0101), .action (.getReg 4)] State.reset
    s.fault = false ∧ nextLine s = some (.action (.setReg 4 0x0101)) ∧
      s.host.script[s.host.pos + 1]? = some (.action (.getReg 4)) := by decide

/-- Both clauses at the first absent number. -/
theorem witness_AbsentRegistersAreRefused :
    (at1 (.action (.setReg 12 1))).fault = false ∧ 12 ≤ 12 ∧
      nextLine (at1 (.action (.setReg 12 1))) = some (.action (.setReg 12 1)) ∧
      (at1 (.action (.getReg 12))).fault = false ∧
      nextLine (at1 (.action (.getReg 12))) = some (.action (.getReg 12)) := by decide

/-- The last cell and the first absent index, of IN and of OUT. -/
theorem witness_HostWindowWrites :
    ∀ a ∈ [31, 32], (at1 (.action (.setIn a 7))).fault = false ∧
      nextLine (at1 (.action (.setIn a 7))) = some (.action (.setIn a 7)) ∧
      (at1 (.action (.setOut a 7))).fault = false ∧
      nextLine (at1 (.action (.setOut a 7))) = some (.action (.setOut a 7)) ∧
      (a < (at1 .halt).cfg.inSize ∨ (at1 .halt).cfg.inSize ≤ a) ∧
      (a < (at1 .halt).cfg.outSize ∨ (at1 .halt).cfg.outSize ≤ a) := by decide

/-- A cell with a value, one without, and the first absent index, of IN and of OUT. -/
theorem witness_HostWindowReads :
    (∀ a ∈ [1, 2, 32], (at1 (.action (.getIn a))).fault = false ∧
      nextLine (at1 (.action (.getIn a))) = some (.action (.getIn a))) ∧
    (at1 .halt).inW.read 1 = some 0x02 ∧ (at1 .halt).inW.read 2 = none ∧ (at1 .halt).cfg.inSize = 32 ∧
    (∀ a ∈ [0, 31, 32], ({ at1 (.action (.getOut a)) with outW := [(0, 9)] } : State).fault = false ∧
      nextLine { at1 (.action (.getOut a)) with outW := [(0, 9)] } = some (.action (.getOut a))) ∧
    Memory.read [(0, 9)] 0 = some 9 ∧ Memory.read [(0, 9)] 31 = none ∧ (at1 .halt).cfg.outSize = 32 := by decide

theorem witness_HostControlFlow :
    nextLine (at1 (.goto 5)) = some (.goto 5) ∧
      nextLine (at1 (.ifEq (.reg 1) 0 5)) = some (.ifEq (.reg 1) 0 5) ∧
      lastRead (.reg 1) (at1 (.ifEq (.reg 1) 0 5)).host.replies = none ∧
      nextLine { at1 .halt with host := ⟨[.ifEq (.reg 1) 0 5], 0, [(.reg 1, 3)]⟩ } = some (.ifEq (.reg 1) 0 5) ∧
      lastRead (.reg 1) [(.reg 1, (3 : Word))] = some 3 ∧
      nextLine (at1 (.expect (.reg 1) 0)) = some (.expect (.reg 1) 0) ∧
      nextLine (at1 .halt) = some .halt ∧ nextLine State.reset = none ∧ (at1 .halt).fault = false := by decide

/-- The four clauses: the fault state; an illegal word; IN_SIZE + 1 live cells; a live cell without a value, with the whole
window live. -/
theorem witness_PrologueInItsOrder :
    ({ State.reset with fault := true } : State).fault = true ∧
    (State.reset.fault = false ∧ ∀ i, ((0x001F : Word), i) ∉ commandTable) ∧
    (((0x0000 : Word), Instr.crc16) ∈ commandTable ∧ ¬ InRange { State.resetWith ⟨8, 8⟩ with inLen := 9 }) ∧
    InRange { State.resetWith ⟨8, 8⟩ with inLen := 8, outCap := 8 } ∧
    ¬ AllLive { State.resetWith ⟨8, 8⟩ with inLen := 8, outCap := 8 } :=
  ⟨rfl, ⟨rfl, fun i => by cases i <;> decide⟩, by decide, by decide, by decide⟩

/-- A success, an error that leaves both windows, and `ChecksumMismatch` of `PASC`. -/
theorem witness_CommandsWriteOnlyStatusResultsAndWindows :
    (∃ t, exec .ertu (st pdu1 1 8) = .next t ∧ t.status = 0x00) ∧
    (∃ t, exec .ertu (st pdu1 1 7) = .next t ∧ t.status = 0x05) ∧
    ∃ t, exec .pasc (st e9) = .next t ∧ t.status = 0x03 :=
  ⟨exec_ends _ (by decide +kernel), exec_ends _ (by decide +kernel), exec_ends _ (by decide +kernel)⟩

/-- One command outside each of the three lists. -/
theorem witness_UnproducedResultsAreZero :
    (∃ t, exec .pasc (st a1) = .next t ∧ t.status = 0x00) ∧ ∃ t, exec .crc16 (st a1) = .next t ∧ t.status = 0x00 :=
  ⟨exec_ends _ (by decide +kernel), exec_ends _ (by decide +kernel)⟩

/-- One command of each line, `PASC` with a scan that succeeds and one that does not. -/
theorem witness_WindowCellsOutsideTheTableAreUnchanged :
    (Ready (st f1) f1 ∧ ∃ t, exec .prtuReq (st f1) = .next t ∧ t.status = 0x00) ∧
    (Ready (st pdu1 1 8) pdu1 ∧ ∃ t, exec .ertu (st pdu1 1 8) = .next t ∧ t.status = 0x00) ∧
    (Ready (st pdu1 1 17) pdu1 ∧ ∃ t, exec .easc (st pdu1 1 17) = .next t ∧ t.status = 0x00) ∧
    (Ready (st a1) a1 ∧ asciiScan a1 = .ok 7 ∧ ∃ t, exec .pasc (st a1) = .next t ∧ t.status = 0x00) ∧
    (Ready (st f1) f1 ∧ asciiScan f1 = .error .invalidHexDigit ∧ ∃ t, exec .pasc (st f1) = .next t ∧ t.status = 0x04) :=
  ⟨⟨by decide +kernel, exec_ends _ (by decide +kernel)⟩, ⟨by decide +kernel, exec_ends _ (by decide +kernel)⟩,
    ⟨by decide +kernel, exec_ends _ (by decide +kernel)⟩, ⟨by decide +kernel, rfl, exec_ends _ (by decide +kernel)⟩,
    ⟨by decide +kernel, rfl, exec_ends _ (by decide +kernel)⟩⟩

/-- Two states that agree on the operands and differ in `STATUS`, the results and a cell beyond `IN_LEN`. -/
theorem witness_OutcomeDependsOnlyOnOperands :
    let s := st pdu1 1 8
    let s' : State := { s with status := 3, result := 7, inW := s.inW.write 20 9, outW := [(30, 1)] }
    s ≠ s' ∧ s.cfg = s'.cfg ∧ s.fault = s'.fault ∧ s.inLen = s'.inLen ∧ s.outCap = s'.outCap ∧ s.unit = s'.unit ∧
      (∀ a < s.inLen.toNat, s.inW.read a = s'.inW.read a) ∧ ∃ t, exec .ertu s = .next t ∧ t.status = 0x00 :=
  ⟨by decide, rfl, rfl, rfl, rfl, rfl, by decide +kernel, exec_ends _ (by decide +kernel)⟩

/-- One parser and one encoder. -/
theorem witness_ResultsPointIntoTheWindows :
    (∃ t, exec .pasc (st a1) = .next t ∧ t.status = 0x00) ∧ ∃ t, exec .ertu (st pdu1 1 8) = .next t ∧ t.status = 0x00 :=
  ⟨exec_ends _ (by decide +kernel), exec_ends _ (by decide +kernel)⟩

/-- Both situations: a live cell without a value, and an unchecked command whose twin ends in `BufferTooShort`. -/
theorem witness_FaultsInExactlyTwoSituations :
    (∃ f, step (script [.action (.setReg 0 0)] { State.reset with inLen := 1 }) = .fault f) ∧
    (∃ f, step (script [.action (.setReg 0 0x0018)] (st (f1.take 7))) = .fault f) :=
  ⟨⟨_, eq_fault (f := .valuelessCell) (by decide +kernel)⟩,
    ⟨_, eq_fault (f := .uncheckedPrecondition) (by decide +kernel)⟩⟩

/-- A checked command, and a word that is no command. -/
theorem witness_CheckedCommandsNeverFault :
    let s := fun c => script [.action (.setReg 0 c)] (st (f1.take 7))
    (∀ c, (s c).fault = false ∧ nextLine (s c) = some (.action (.setReg 0 c)) ∧ AllLive (s c)) ∧
    (∀ i, decode 0x0010 = .ok i → isChecked i = true) ∧ (∀ i, decode 0x0013 = .ok i → isChecked i = true) :=
  ⟨fun _ => ⟨rfl, rfl, (by decide +kernel : AllLive (st (f1.take 7)))⟩,
    fun i h => (Except.ok.inj (h.symm.trans (rfl : decode 0x0010 = .ok .prtuReq))) ▸ rfl, fun i h => nomatch h⟩

/-- The five kinds of refusal. -/
theorem witness_OnlyHostAccessesAreRefused :
    step (at1 (.action (.getReg 12))) = .refused (.noSuchRegister 12) ∧
      step (at1 (.action (.getIn 32))) = .refused (.noSuchInCell 32) ∧
      step (at1 (.action (.setOut 32 0))) = .refused (.noSuchOutCell 32) ∧
      step (at1 (.action (.getIn 2))) = .refused (.cellWithoutValue 2) ∧
      step (at1 (.ifEq (.reg 1) 0 0)) = .refused (.neverRead (.reg 1)) :=
  ⟨rfl, rfl, rfl, rfl, rfl⟩

/-- The smallest and the largest instance. -/
theorem witness_ResetMeetsTheInvariant : Config.wf ⟨1, 1⟩ = true ∧ Config.wf ⟨65535, 65535⟩ = true := by decide

/-- A state that meets the invariant, with a command the host is about to start, and its next state. -/
theorem witness_StepKeepsTheInvariant :
    let s := script [.action (.setReg 0 0x0014)] (st pdu1 1 8)
    BlockInv s ∧ step s = .next (nextOf (step s)) :=
  ⟨⟨by decide, by decide, by decide, by decide, by decide, by decide, by decide, by decide, by decide, by decide, rfl⟩,
    eq_next (by decide +kernel)⟩

theorem witness_Crc16ResidueLaws : Ready (st [0xFF, 0xFF]) [0xFF, 0xFF] ∧ 2 ≤ [0xFF, 0xFF].length := by decide +kernel

/-- A window of one byte, and two orders of the same bytes. -/
theorem witness_LrcLaws :
    Ready (st [0x00]) [0x00] ∧ 1 ≤ [0x00].length ∧ List.Perm [(1 : Byte), 2] [2, 1] :=
  ⟨by decide +kernel, by decide, by decide⟩

/-- A state whose live window is out of range. -/
def outside : State := { State.resetWith ⟨8, 8⟩ with inLen := 9 }

theorem witness_Crc16CommandResult :
    Ready (st []) [] ∧ Ready (st f1) f1 ∧ (∃ t, exec .crc16 (st f1) = .next t ∧ t.status = 0x00) ∧
      ∃ t, exec .crc16 outside = .next t ∧ t.status = 0xF1 :=
  ⟨by decide +kernel, by decide +kernel, exec_ends _ (by decide +kernel), exec_ends _ (by decide +kernel)⟩

theorem witness_LrcCommandResult :
    Ready (st []) [] ∧ Ready (st f1) f1 ∧ (∃ t, exec .lrc (st f1) = .next t ∧ t.status = 0x00) ∧
      ∃ t, exec .lrc outside = .next t ∧ t.status = 0xF1 :=
  ⟨by decide +kernel, by decide +kernel, exec_ends _ (by decide +kernel), exec_ends _ (by decide +kernel)⟩

/-- Both verdicts; the empty window and one byte are under the second. -/
theorem witness_Vcrc16CommandResult :
    (Ready (st f1) f1 ∧
      f1 = f1.take 6 ++ [(crc16 (f1.take 6)).extractLsb' 0 8, (crc16 (f1.take 6)).extractLsb' 8 8]) ∧
    (Ready (st [0xFF]) [0xFF] ∧
      ¬ ∃ d, [(0xFF : Byte)] = d ++ [(crc16 d).extractLsb' 0 8, (crc16 d).extractLsb' 8 8]) ∧
    ∃ t, exec .vcrc16 outside = .next t ∧ t.status = 0xF1 :=
  ⟨by decide +kernel,
    ⟨by decide +kernel, fun ⟨d, hd⟩ => by have := congrArg List.length hd; simp at this⟩,
    exec_ends _ (by decide +kernel)⟩

/-- Both verdicts; the empty window is under the second. -/
theorem witness_VlrcCommandResult :
    (Ready (st [0x00]) [0x00] ∧ [(0x00 : Byte)] = [] ++ [lrc []]) ∧
    (Ready (st []) [] ∧ ¬ ∃ d, ([] : List Byte) = d ++ [lrc d]) ∧ ∃ t, exec .vlrc outside = .next t ∧ t.status = 0xF1 :=
  ⟨by decide +kernel, ⟨by decide +kernel, fun ⟨d, hd⟩ => by have := congrArg List.length hd; simp at this⟩,
    exec_ends _ (by decide +kernel)⟩

/-- A window for each clause: the smallest exception code and the largest other one, and the lengths where a byte count is
not there and where it is. -/
theorem witness_RtuPduLengthTable :
    (∀ data ∈ ([[1, 0x80], [1, 0x7F], [1, 3], [1, 3, 0], [1, 5], [1, 6], [1, 0x0F, 0, 0, 0, 0], [1, 0x10, 0, 0, 0, 0, 2],
      [1, 0, 0], [1, 7, 0, 0]] : List (List Byte)), 2 ≤ data.length) ∧
    0x80 ≤ (0x80 : Nat) ∧ 3 ∈ [0x01, 0x02, 0x03, 0x04] ∧ 5 ∈ [0x05, 0x06] ∧ 0x10 ∈ [0x0F, 0x10] ∧
    (∀ fc ∈ [0, 7, 0x7F], fc < 0x80 ∧ fc ∉ [0x01, 0x02, 0x03, 0x04, 0x05, 0x06, 0x0F, 0x10]) := by decide

/-- The three ends: a frame one byte short (the length known) and one of three bytes (not known); a frame; a wrong trailer. -/
theorem witness_PrtuCommandResult :
    (Ready (st (f2.take 6)) (f2.take 6) ∧ rtuPduLen .rsp (f2.take 6) = some 4 ∧ (f2.take 6).length < 4 + 3) ∧
    (Ready (st [1, 3]) [1, 3] ∧ rtuPduLen .rsp [1, 3] = none) ∧
    (Ready (st f2) f2 ∧ 2 ≤ f2.length ∧ rtuPduLen .rsp f2 = some 4 ∧ 4 + 3 ≤ f2.length ∧
      f2[5]? = some ((crc16 (f2.take 5)).extractLsb' 0 8) ∧ f2[6]? = some ((crc16 (f2.take 5)).extractLsb' 8 8)) ∧
    (Ready (st (f2.set 6 0)) (f2.set 6 0) ∧ rtuPduLen .rsp (f2.set 6 0) = some 4 ∧
      (f2.set 6 0)[6]? ≠ some ((crc16 ((f2.set 6 0).take 5)).extractLsb' 8 8)) := by decide +kernel

/-- One cell short and just enough; and each `STATUS`. -/
theorem witness_ErtuCommandResult :
    (Ready (st pdu1 1 7) pdu1 ∧ (st pdu1 1 7).outCap.toNat < pdu1.length + 3) ∧
    (Ready (st pdu1 1 8) pdu1 ∧ pdu1.length + 3 ≤ (st pdu1 1 8).outCap.toNat) ∧
    ∃ t, exec .ertu outside = .next t ∧ t.status = 0xF1 :=
  ⟨by decide +kernel, by decide +kernel, exec_ends _ (by decide +kernel)⟩

/-- F1, and for the second clause the smallest frame of an unknown function code (F11). -/
theorem witness_RtuEncodeThenParse :
    (let s := st pdu1 1 8
     let t := nextOf (exec .ertu s)
     Ready s pdu1 ∧ exec .ertu s = .next t ∧ t.status = 0x00 ∧ t.outW.bytes 0 (pdu1.length + 3) = some f1 ∧
       Ready (st f1) f1 ∧ rtuPduLen .req f1 = some pdu1.length) ∧
    (let s := st [0x00] 0x0A 4
     let t := nextOf (exec .ertu s)
     Ready s [0x00] ∧ exec .ertu s = .next t ∧ t.status = 0x00 ∧
       t.outW.bytes 0 4 = some [0x0A, 0x00, 0x07, 0x10] ∧
       Ready (st [0x0A, 0x00, 0x07, 0x10]) [0x0A, 0x00, 0x07, 0x10] ∧ ([0x00] : List Byte)[0]? = some 0x00) :=
  ⟨⟨by decide +kernel, eq_next (by decide +kernel), by decide +kernel, by decide +kernel, by decide +kernel,
      by decide +kernel⟩,
    by decide +kernel, eq_next (by decide +kernel), by decide +kernel, by decide +kernel, by decide +kernel, by decide⟩

theorem witness_RtuParseThenEncode :
    let s := st f1
    let t := nextOf (exec (rtuCommand .req) s)
    let u := st pdu1 1 8
    Ready s f1 ∧ exec (rtuCommand .req) s = .next t ∧ t.status = 0x00 ∧
      Ready u ((f1.drop 1).take t.pduLen.toNat) ∧ u.unit.setWidth 16 = t.addr ∧ t.frameLen.toNat ≤ u.outCap.toNat :=
  ⟨by decide +kernel, eq_next (by decide +kernel), by decide +kernel, by decide +kernel, by decide +kernel,
    by decide +kernel⟩

theorem witness_RtuCorruptTrailerIsRejected :
    let s := st f1
    let t := nextOf (exec (rtuCommand .req) s)
    let d := f1.set 7 0x0B
    Ready s f1 ∧ exec (rtuCommand .req) s = .next t ∧ t.status = 0x00 ∧ Ready (st d) d ∧ d.length = f1.length ∧
      d.take (t.pduLen.toNat + 1) = f1.take (t.pduLen.toNat + 1) ∧
      d.take (t.pduLen.toNat + 3) ≠ f1.take (t.pduLen.toNat + 3) :=
  ⟨by decide +kernel, eq_next (by decide +kernel), by decide +kernel, by decide +kernel, by decide +kernel,
    by decide +kernel, by decide +kernel⟩

/-- Frame F3 of L2-3: an exception response. -/
def f3 : List Byte := [0x01, 0x83, 0x02, 0xC0, 0xF1]

/-- The empty prefix and the longest one, of F1 and of the exception frame F3. -/
theorem witness_RtuStrictPrefixNeedsMoreBytes :
    (let t := nextOf (exec (rtuCommand .req) (st f1))
     Ready (st f1) f1 ∧ exec (rtuCommand .req) (st f1) = .next t ∧ t.status = 0x00 ∧
       (f1.getD 1 0).toNat ∈ [0x01, 0x02, 0x03, 0x04, 0x05, 0x06, 0x0F, 0x10] ∧
       ∀ k ∈ [0, 7], k < t.frameLen.toNat ∧ Ready (st (f1.take k)) (f1.take k)) ∧
    (let t := nextOf (exec (rtuCommand .rsp) (st f3))
     Ready (st f3) f3 ∧ exec (rtuCommand .rsp) (st f3) = .next t ∧ t.status = 0x00 ∧ 0x80 ≤ (f3.getD 1 0).toNat ∧
       ∀ k ∈ [0, 4], k < t.frameLen.toNat ∧ Ready (st (f3.take k)) (f3.take k)) :=
  ⟨⟨by decide +kernel, eq_next (by decide +kernel), by decide +kernel, by decide +kernel, by decide +kernel⟩,
    by decide +kernel, eq_next (by decide +kernel), by decide +kernel, by decide +kernel, by decide +kernel⟩

/-- The exception frame F3 and the same frame corrupt: an exception code of 0x80 or more. -/
theorem witness_RtuVerdictStandsWhenBytesAreAppended_exception :
    ∀ d ∈ [f3, f3.set 4 0x00],
      isNext (exec (rtuCommand .rsp) (st d)) = true ∧ Ready (st d) d ∧
        (nextOf (exec (rtuCommand .rsp) (st d))).status ≠ 0x01 ∧ 0x80 ≤ (d.getD 1 0).toNat ∧
        Ready (st (d ++ [0xAA, 0xBB])) (d ++ [0xAA, 0xBB]) := by decide +kernel

/-- A frame and a corrupt frame. -/
theorem witness_RtuVerdictStandsWhenBytesAreAppended :
    ∀ d ∈ [f1, f1.set 7 0x0B],
      isNext (exec (rtuCommand .req) (st d)) = true ∧ Ready (st d) d ∧
        (nextOf (exec (rtuCommand .req) (st d))).status ≠ 0x01 ∧
        (d.getD 1 0).toNat ∈ [0x01, 0x02, 0x03, 0x04, 0x05, 0x06, 0x0F, 0x10] ∧
        Ready (st (d ++ [0xAA, 0xBB])) (d ++ [0xAA, 0xBB]) := by decide +kernel

/-- Frame F10 of L2-3, and U3. -/
theorem witness_RtuUnknownFunctionTakesTrailingZeros :
    let d : List Byte := [0x0A, 0x2B, 0x0E, 0x01, 0x00, 0xD5, 0xB6]
    let t := nextOf (exec (rtuCommand .rsp) (st d))
    Ready (st d) d ∧ exec (rtuCommand .rsp) (st d) = .next t ∧ t.status = 0x00 ∧ (d.getD 1 0).toNat < 0x80 ∧
      (d.getD 1 0).toNat ∉ [0x01, 0x02, 0x03, 0x04, 0x05, 0x06, 0x0F, 0x10] ∧
      Ready (st (d ++ List.replicate 1 0)) (d ++ List.replicate 1 0) :=
  ⟨by decide +kernel, eq_next (by decide +kernel), by decide +kernel, by decide, by decide, by decide +kernel⟩

/-- The smallest and the largest hex digit of each range, and their neighbours. -/
theorem witness_HexDigitsAreUppercase :
    (∀ b ∈ ([0x30, 0x39, 0x41, 0x46] : List Byte), isHex b = true) ∧
      (∀ b ∈ ([0x2F, 0x3A, 0x40, 0x47, 0x61] : List Byte), isHex b = false) ∧ 15 < 16 := by decide

/-- The smallest frame accepted (A5 of L2-6). -/
theorem witness_AsciiScanAcceptsExactlyFrames :
    asciiScan [0x3A, 0x30, 0x31, 0x30, 0x33, 0x46, 0x43, 0x0D, 0x0A] = .ok 3 := rfl

/-- One window of L2-6 for each way to an error: no colon (E3), a bad high nibble (E7c, shortened), a bad low nibble (E5), CR in
the low-nibble place (E6b), CR without LF (as E7, m = 0); m = 0 and m = 2 (M1, M3); and the bytes ending at once, after the
colon, after a nibble, after CR (A8). -/
theorem witness_AsciiScanReportsTheFirstOffence :
    (∀ d ∈ ([[0x30], [0x3A, 0x30, 0x31, 0x0A], [0x3A, 0x30, 0x47], [0x3A, 0x30, 0x0D, 0x0A], [0x3A, 0x0D, 0x58]] :
      List (List Byte)), asciiScan d = .error .invalidHexDigit) ∧
    (∀ d ∈ ([[0x3A, 0x0D, 0x0A], [0x3A, 0x30, 0x31, 0x46, 0x46, 0x0D, 0x0A]] : List (List Byte)),
      asciiScan d = .error .lengthMismatch) ∧
    (∀ d ∈ ([[], [0x3A], [0x3A, 0x30], [0x3A, 0x30, 0x31, 0x0D]] : List (List Byte)),
      asciiScan d = .error .bufferTooShort) := by
  simp only [List.forall_mem_cons, List.not_mem_nil, false_implies, implies_true, and_true]
  exact ⟨⟨rfl, rfl, rfl, rfl, rfl⟩, ⟨rfl, rfl⟩, rfl, rfl, rfl, rfl⟩

/-- The three errors: A8, M3 and E5 of L2-6. -/
theorem witness_PascScanErrorsLeaveTheWindow :
    (Ready (st [0x3A, 0x30]) [0x3A, 0x30] ∧ asciiScan [0x3A, 0x30] = .error .bufferTooShort) ∧
    (Ready (st [0x3A, 0x30, 0x31, 0x46, 0x46, 0x0D, 0x0A]) [0x3A, 0x30, 0x31, 0x46, 0x46, 0x0D, 0x0A] ∧
      asciiScan [0x3A, 0x30, 0x31, 0x46, 0x46, 0x0D, 0x0A] = .error .lengthMismatch) ∧
    (Ready (st [0x3A, 0x30, 0x47]) [0x3A, 0x30, 0x47] ∧ asciiScan [0x3A, 0x30, 0x47] = .error .invalidHexDigit) :=
  ⟨⟨by decide +kernel, rfl⟩, ⟨by decide +kernel, rfl⟩, ⟨by decide +kernel, rfl⟩⟩

/-- Both clauses: A1 ends Ok, E9 in `ChecksumMismatch`. -/
theorem witness_PascCommandResult :
    (Ready (st a1) a1 ∧ asciiScan a1 = .ok 7 ∧ ∃ t, exec .pasc (st a1) = .next t ∧ t.status = 0x00) ∧
    (Ready (st e9) e9 ∧ asciiScan e9 = .ok 7 ∧ ∃ t, exec .pasc (st e9) = .next t ∧ t.status = 0x03) :=
  ⟨⟨by decide +kernel, rfl, exec_ends _ (by decide +kernel)⟩, ⟨by decide +kernel, rfl, exec_ends _ (by decide +kernel)⟩⟩

/-- One cell short and just enough; the first and the last byte of the frame; and each `STATUS`. -/
theorem witness_EascCommandResult :
    (Ready (st pdu1 1 16) pdu1 ∧ (st pdu1 1 16).outCap.toNat < 2 * pdu1.length + 7) ∧
    (Ready (st pdu1 1 17) pdu1 ∧ 2 * pdu1.length + 7 ≤ (st pdu1 1 17).outCap.toNat ∧
      ((1 : Byte) :: pdu1 ++ [lrc (1 :: pdu1)])[0]? = some 1 ∧
      ((1 : Byte) :: pdu1 ++ [lrc (1 :: pdu1)])[6]? = some 0xFB) ∧
    ∃ t, exec .easc outside = .next t ∧ t.status = 0xF1 :=
  ⟨by decide +kernel, by decide +kernel, exec_ends _ (by decide +kernel)⟩

/-- A PDU of five bytes, and the empty one. -/
theorem witness_AsciiEncodeThenParse :
    (let t := nextOf (exec .easc (st pdu1 1 17))
     Ready (st pdu1 1 17) pdu1 ∧ exec .easc (st pdu1 1 17) = .next t ∧ t.status = 0x00 ∧
       t.outW.bytes 0 (2 * pdu1.length + 7) = some a1 ∧ Ready (st a1) a1 ∧ 1 ≤ pdu1.length) ∧
    (let t := nextOf (exec .easc (st [] 1 7))
     Ready (st [] 1 7) [] ∧ exec .easc (st [] 1 7) = .next t ∧ t.status = 0x00 ∧
       t.outW.bytes 0 7 = some [0x3A, 0x30, 0x31, 0x46, 0x46, 0x0D, 0x0A] ∧
       Ready (st [0x3A, 0x30, 0x31, 0x46, 0x46, 0x0D, 0x0A]) [0x3A, 0x30, 0x31, 0x46, 0x46, 0x0D, 0x0A]) :=
  ⟨⟨by decide +kernel, eq_next (by decide +kernel), by decide +kernel, by decide +kernel, by decide +kernel, by decide⟩,
    by decide +kernel, eq_next (by decide +kernel), by decide +kernel, by decide +kernel, by decide +kernel⟩

theorem witness_AsciiParseThenEncode :
    let t := nextOf (exec .pasc (st a1))
    let u := st pdu1 1 17
    Ready (st a1) a1 ∧ exec .pasc (st a1) = .next t ∧ t.status = 0x00 ∧ t.inW.bytes 2 t.pduLen.toNat = some pdu1 ∧
      Ready u pdu1 ∧ u.unit.setWidth 16 = t.addr ∧ t.frameLen.toNat ≤ u.outCap.toNat :=
  ⟨by decide +kernel, eq_next (by decide +kernel), by decide +kernel, by decide +kernel, by decide +kernel,
    by decide +kernel, by decide +kernel⟩

/-- Both LRC characters of A1 (indexes 13 and 14), each by a hex digit and by another byte. -/
theorem witness_AsciiCorruptLrcIsRejected :
    let t := nextOf (exec .pasc (st a1))
    Ready (st a1) a1 ∧ exec .pasc (st a1) = .next t ∧ t.status = 0x00 ∧
      13 + 4 = t.frameLen.toNat ∧ 14 + 3 = t.frameLen.toNat ∧
      ∀ j ∈ [13, 14], ∀ b ∈ ([0x30, 0x61] : List Byte), b ≠ a1.getD j 0 ∧ Ready (st (a1.set j b)) (a1.set j b) :=
  ⟨by decide +kernel, eq_next (by decide +kernel), by decide +kernel, by decide +kernel, by decide +kernel,
    by decide +kernel⟩

/-- The empty prefix and the longest one. -/
theorem witness_AsciiStrictPrefixNeedsMoreBytes :
    let t := nextOf (exec .pasc (st a1))
    Ready (st a1) a1 ∧ exec .pasc (st a1) = .next t ∧ t.status = 0x00 ∧
      ∀ k ∈ [0, 16], k < t.frameLen.toNat ∧ Ready (st (a1.take k)) (a1.take k) :=
  ⟨by decide +kernel, eq_next (by decide +kernel), by decide +kernel, by decide +kernel⟩

/-- Both parts: a frame and a corrupt one with bytes after them; a partial frame, and the window its completion gives. -/
theorem witness_AsciiVerdictStandsWhenBytesAreAppended :
    (∀ d ∈ [a1, e9],
      isNext (exec .pasc (st d)) = true ∧ Ready (st d) d ∧ (nextOf (exec .pasc (st d))).status ≠ 0x01 ∧
        Ready (st (d ++ [0x3A])) (d ++ [0x3A])) ∧
    Ready (st (a1.take 9)) (a1.take 9) ∧ (∃ t, exec .pasc (st (a1.take 9)) = .next t ∧ t.status = 0x01) ∧
    Ready (st (a1.take 9 ++ a1.drop 9)) (a1.take 9 ++ a1.drop 9) :=
  ⟨by decide +kernel, by decide +kernel, exec_ends _ (by decide +kernel), by decide +kernel⟩

/-- The three clauses, on `PASC.U`: the twin ends Ok, in another kind, and out of range. -/
theorem witness_UncheckedCommandsFollowTheirTwins :
    checkedTwin .pascU = some .pasc ∧ (st a1).fault = false ∧
      (∃ t, exec .pasc (st a1) = .next t ∧ t.status = 0x00) ∧
      (InRange (st e9) ∧ ∃ t, exec .pasc (st e9) = .next t ∧ t.status = 0x03) ∧ ¬ InRange outside :=
  ⟨rfl, rfl, exec_ends _ (by decide +kernel), ⟨by decide +kernel, exec_ends _ (by decide +kernel)⟩, by decide⟩

/-- F1, F1 one byte short, and out of range. -/
theorem witness_PrtuUncheckedResult :
    (Ready (st f1) f1 ∧ 2 ≤ f1.length ∧ rtuPduLen .req f1 = some 5 ∧ 5 + 3 ≤ f1.length ∧
      f1[6]? = some ((crc16 (f1.take 6)).extractLsb' 0 8) ∧ f1[7]? = some ((crc16 (f1.take 6)).extractLsb' 8 8)) ∧
    (Ready (st (f1.take 7)) (f1.take 7) ∧ rtuPduLen .req (f1.take 7) = some 5 ∧ (f1.take 7).length < 5 + 3) ∧
    ∃ t, exec (rtuCommandU .req) outside = .next t ∧ t.status = 0xF1 :=
  ⟨by decide +kernel, by decide +kernel, exec_ends _ (by decide +kernel)⟩

/-- The ends: A1, E9, a scan that fails, and out of range. -/
theorem witness_PascUncheckedResult :
    (let d := [(0x01 : Byte), 0x03, 0x00, 0x00, 0x00, 0x01, 0xFB]
     Ready (st a1) a1 ∧ d.length = 7 ∧
       (∀ k < 7, d[k]? =
         some (BitVec.ofNat 8 (16 * hexVal (a1.getD (1 + 2 * k) 0) + hexVal (a1.getD (2 + 2 * k) 0)))) ∧
       d[7 - 1]? = some (lrc (d.take (7 - 1)))) ∧
    (let d := [(0x01 : Byte), 0x03, 0x00, 0x00, 0x00, 0x01, 0xFA]
     Ready (st e9) e9 ∧ d.length = 7 ∧
       (∀ k < 7, d[k]? =
         some (BitVec.ofNat 8 (16 * hexVal (e9.getD (1 + 2 * k) 0) + hexVal (e9.getD (2 + 2 * k) 0)))) ∧
       d[7 - 1]? ≠ some (lrc (d.take (7 - 1)))) ∧
    asciiScan a1 = .ok 7 ∧ asciiScan e9 = .ok 7 ∧ Ready (st f1) f1 ∧ asciiScan f1 = .error .invalidHexDigit ∧
    ∃ t, exec .pascU outside = .next t ∧ t.status = 0xF1 :=
  ⟨by decide +kernel, by decide +kernel, rfl, rfl, by decide +kernel, rfl, exec_ends _ (by decide +kernel)⟩

/-- One cell short, just enough, and out of range. -/
theorem witness_ErtuUncheckedResult :
    (Ready (st pdu1 1 7) pdu1 ∧ (st pdu1 1 7).outCap.toNat < pdu1.length + 3) ∧
    (Ready (st pdu1 1 8) pdu1 ∧ pdu1.length + 3 ≤ (st pdu1 1 8).outCap.toNat) ∧
    ∃ t, exec .ertuU outside = .next t ∧ t.status = 0xF1 :=
  ⟨by decide +kernel, by decide +kernel, exec_ends _ (by decide +kernel)⟩

/-- One cell short, just enough, and out of range. -/
theorem witness_EascUncheckedResult :
    (Ready (st pdu1 1 16) pdu1 ∧ (st pdu1 1 16).outCap.toNat < 2 * pdu1.length + 7) ∧
    (Ready (st pdu1 1 17) pdu1 ∧ 2 * pdu1.length + 7 ≤ (st pdu1 1 17).outCap.toNat) ∧
    ∃ t, exec .eascU outside = .next t ∧ t.status = 0xF1 :=
  ⟨by decide +kernel, by decide +kernel, exec_ends _ (by decide +kernel)⟩

end Sys2Proof.Tests
end

/-! SUPPORT. Noninterference (R28): two states with the same operands give the same outcome of every command. -/

namespace Sys2Proof.Machine

/-- The two states agree on all that R28 lets a command depend on: the parameters, the fault bit, the operand registers
and the live cells. -/
structure SameOperands (s s' : State) : Prop where
  cfg : s.cfg = s'.cfg
  fault : s.fault = s'.fault
  inLen : s.inLen = s'.inLen
  outCap : s.outCap = s'.outCap
  unit : s.unit = s'.unit
  live : ∀ a < s.inLen.toNat, s.inW.read a = s'.inW.read a

/-- A window that was `m` and is now `w`, beside one that was `m'` and is now `w'`: each cell holds the same in both, or in
both what it held before. -/
def SameWrites (m m' w w' : Memory) : Prop :=
  ∀ a, w.read a = w'.read a ∨ (w.read a = m.read a ∧ w'.read a = m'.read a)

theorem SameWrites.unchanged (m m' : Memory) : SameWrites m m' m m' := fun _ => .inr ⟨rfl, rfl⟩

theorem SameWrites.writeBytes (m m' : Memory) (a : Nat) (bs : List Byte) :
    SameWrites m m' (m.writeBytes a bs) (m'.writeBytes a bs) := fun b => by
  simp only [Memory.read_writeBytes]
  by_cases hb : a ≤ b ∧ b < a + bs.length
  · simp only [if_pos hb, true_or]
  · simp only [if_neg hb, and_self, or_true]

/-- Both windows of `w` and `w'` are what the same writes leave from `s` and `s'`. -/
def SameWindowWrites (s s' w w' : State) : Prop :=
  SameWrites s.inW s'.inW w.inW w'.inW ∧ SameWrites s.outW s'.outW w.outW w'.outW

theorem SameWindowWrites.unchanged (s s' : State) : SameWindowWrites s s' s s' :=
  ⟨.unchanged _ _, .unchanged _ _⟩

/-- The next states `t` of `s` and `t'` of `s'` agree on all a command writes: `STATUS`, the results, the windows. -/
structure SameNext (s s' t t' : State) : Prop where
  status : t.status = t'.status
  result : t.result = t'.result
  addr : t.addr = t'.addr
  pduOff : t.pduOff = t'.pduOff
  pduLen : t.pduLen = t'.pduLen
  frameLen : t.frameLen = t'.frameLen
  outLen : t.outLen = t'.outLen
  windows : SameWindowWrites s s' t t'

/-- The outcomes of a command on `s` and on `s'`: the same fault, or next states that agree. -/
inductive SameOutcome (s s' : State) : StepResult → StepResult → Prop
  | fault (f : Fault) : SameOutcome s s' (.fault f) (.fault f)
  | next {t t' : State} (h : SameNext s s' t t') : SameOutcome s s' (.next t) (.next t')

/-! ### Ends -/

theorem SameOutcome.commandDone {s s' w w' : State} (h : SameWindowWrites s s' w w') (r : Results) :
    SameOutcome s s' (.next (commandDone r w)) (.next (commandDone r w')) :=
  .next ⟨rfl, rfl, rfl, rfl, rfl, rfl, rfl, h⟩

theorem SameOutcome.raiseError {s s' w w' : State} (h : SameWindowWrites s s' w w') (k : ErrorKind) :
    SameOutcome s s' (.next (raiseError k w)) (.next (raiseError k w')) :=
  .next ⟨rfl, rfl, rfl, rfl, rfl, rfl, rfl, h⟩

/-- One end, from states that the same window writes have left, is one outcome. -/
theorem commandEnd_sameOutcome {s s' w w' : State} (h : SameWindowWrites s s' w w') (i : Instr) (e : Ending) :
    SameOutcome s s' (commandEnd i (w, e)) (commandEnd i (w', e)) := by
  unfold commandEnd
  cases e with
  | done r => split <;> exact .commandDone h r
  | raise k =>
    split
    · exact .raiseError h k
    · exact .fault .uncheckedPrecondition
  | noValue => split <;> exact .fault .valuelessCell

/-! ### The prologue -/

theorem SameOperands.liveData {s s' : State} (h : SameOperands s s') : liveData s = liveData s' := by
  refine Option.ext fun data => ?_
  rw [liveData_eq_some, liveData_eq_some, ← h.inLen]
  refine and_congr_right fun _ => forall₂_congr fun a ha => ?_
  rw [h.live a ha]

theorem SameOperands.inRange_iff {s s' : State} (h : SameOperands s s') : InRange s ↔ InRange s' := by
  rw [InRange, InRange, h.cfg, h.inLen, h.outCap]

theorem SameOperands.ready {s s' : State} (h : SameOperands s s') {data : List Byte} (hr : Ready s data) :
    Ready s' data :=
  ⟨h.fault ▸ hr.1, h.inRange_iff.1 hr.2.1, h.liveData ▸ hr.2.2⟩

/-- The prologue takes the same branch on both states, so what is left to show is that the pseudocode agrees. -/
theorem prologue_sameOutcome {s s' : State} (h : SameOperands s s') {body body' : List Byte → StepResult}
    (hb : ∀ data, Ready s data → SameOutcome s s' (body data) (body' data)) :
    SameOutcome s s' (prologue s body) (prologue s' body') := by
  rcases prologue_cases s with hf | ⟨hf, hr⟩ | ⟨hf, hr, hl⟩ | ⟨data, hd⟩
  · rw [prologue_of_fault hf, prologue_of_fault (h.fault ▸ hf)]
    exact .fault _
  · rw [prologue_of_not_inRange hf hr, prologue_of_not_inRange (h.fault ▸ hf) (mt h.inRange_iff.2 hr)]
    exact .raiseError (.unchanged ..) _
  · have hl' : ¬ AllLive s' := by rwa [← liveData_eq_none, ← h.liveData, liveData_eq_none]
    rw [prologue_of_not_allLive hf hr hl, prologue_of_not_allLive (h.fault ▸ hf) (h.inRange_iff.1 hr) hl']
    exact .fault _
  · rw [prologue_of_ready hd, prologue_of_ready (h.ready hd)]
    exact hb data hd

/-! ### The pseudocode of a command -/

/-- The pseudocode ends the same on both states and has written the same cells. -/
def SameRun (s s' : State) (p p' : State × Ending) : Prop :=
  p.2 = p'.2 ∧ SameWindowWrites s s' p.1 p'.1

theorem SameRun.unchanged (s s' : State) (e : Ending) : SameRun s s' (s, e) (s', e) := ⟨rfl, .unchanged ..⟩

theorem parseAscii_sameRun {s s' : State} (h : SameOperands s s') {data : List Byte} (hr : Ready s data) :
    SameRun s s' (parseAscii s data) (parseAscii s' data) := by
  cases hs : asciiScan data with
  | error k =>
    rw [parseAscii_error hs, parseAscii_error hs]
    exact .unchanged ..
  | ok m =>
    rw [parseAscii_scanned hr hs, parseAscii_scanned (h.ready hr) hs]
    exact ⟨rfl, .writeBytes _ _ _ _, .unchanged _ _⟩

theorem encodeRtu_sameRun {s s' : State} (h : SameOperands s s') (data : List Byte) :
    SameRun s s' (encodeRtu s data) (encodeRtu s' data) := by
  rcases Nat.lt_or_ge s.outCap.toNat (data.length + 3) with hc | hc
  · rw [encodeRtu_short hc, encodeRtu_short (h.outCap ▸ hc)]
    exact .unchanged ..
  · rw [encodeRtu_fits hc, encodeRtu_fits (h.outCap ▸ hc), h.unit]
    exact ⟨rfl, .unchanged _ _, .writeBytes _ _ _ _⟩

theorem encodeAscii_sameRun {s s' : State} (h : SameOperands s s') (data : List Byte) :
    SameRun s s' (encodeAscii s data) (encodeAscii s' data) := by
  rcases Nat.lt_or_ge s.outCap.toNat (2 * data.length + 7) with hc | hc
  · rw [encodeAscii_short hc, encodeAscii_short (h.outCap ▸ hc)]
    exact .unchanged ..
  · rw [encodeAscii_fits hc, encodeAscii_fits (h.outCap ▸ hc), h.unit]
    exact ⟨rfl, .unchanged _ _, .writeBytes _ _ _ _⟩

theorem commandBody_sameRun {s s' : State} (h : SameOperands s s') (i : Instr) {data : List Byte}
    (hr : Ready s data) : SameRun s s' (commandBody i s data) (commandBody i s' data) := by
  cases i with
  | crc16 | lrc | vcrc16 | vlrc | prtuReq | prtuRsp | prtuReqU | prtuRspU => exact .unchanged ..
  | pasc | pascU => exact parseAscii_sameRun h hr
  | ertu | ertuU => exact encodeRtu_sameRun h data
  | easc | eascU => exact encodeAscii_sameRun h data

/-! ### Every command -/

theorem exec_sameOutcome {s s' : State} (h : SameOperands s s') (i : Instr) :
    SameOutcome s s' (exec i s) (exec i s') := by
  rw [exec_eq, exec_eq]
  refine prologue_sameOutcome h fun data hr => ?_
  obtain ⟨hend, hw⟩ := commandBody_sameRun h i hr
  have := commandEnd_sameOutcome hw i (commandBody i s data).2
  rwa [Prod.mk.eta, hend, Prod.mk.eta] at this

theorem SameOutcome.fault_iff {s s' : State} {o o' : StepResult} (h : SameOutcome s s' o o') (f : Fault) :
    o = .fault f ↔ o' = .fault f := by
  cases h with
  | fault g => rfl
  | next h => simp only [reduceCtorEq]

theorem SameOutcome.exists_next {s s' t : State} {o' : StepResult} (h : SameOutcome s s' (.next t) o') :
    ∃ t', o' = .next t' ∧ SameNext s s' t t' := by
  cases h with
  | next h => exact ⟨_, rfl, h⟩

/-- Settles O19: the prologue takes the same branch on both states, and on the same live bytes the pseudocode of a command
ends the same and writes the same bytes to the same cells. -/
theorem outcomeDependsOnlyOnOperands : Obligations.OutcomeDependsOnlyOnOperands := by
  intro i s s' hcfg hfault hinLen houtCap hunit hlive
  have same := exec_sameOutcome ⟨hcfg, hfault, hinLen, houtCap, hunit, hlive⟩ i
  refine ⟨same.fault_iff, fun t ht => ?_⟩
  obtain ⟨t', ht', hn⟩ := (ht ▸ same).exists_next
  exact ⟨t', ht', hn.status, hn.result, hn.addr, hn.pduOff, hn.pduLen, hn.frameLen, hn.outLen, hn.windows⟩

end Sys2Proof.Machine

/-! SUPPORT. Host accesses to window cells (R41, R45): one rule per access and case. -/

namespace Sys2Proof.Machine

/-! ### IN -/

theorem hostAction_setIn_of_lt (s : State) {a : Nat} {v : Byte} (ha : a < s.cfg.inSize) :
    hostAction (.setIn a v) s = .next { s with inW := s.inW.write a v } := if_pos ha

theorem hostAction_setIn_of_ge (s : State) {a : Nat} {v : Byte} (ha : s.cfg.inSize ≤ a) :
    hostAction (.setIn a v) s = .refused (.noSuchInCell a) := if_neg ha.not_gt

theorem hostAction_getIn_of_some (s : State) {a : Nat} {b : Byte} (ha : a < s.cfg.inSize)
    (hb : s.inW.read a = some b) : hostAction (.getIn a) s = .next (reply (.inCell a) (zext16 b) s) := by
  rw [hostAction, if_pos ha, hb]

theorem hostAction_getIn_of_none (s : State) {a : Nat} (ha : a < s.cfg.inSize) (hb : s.inW.read a = none) :
    hostAction (.getIn a) s = .refused (.cellWithoutValue a) := by
  rw [hostAction, if_pos ha, hb]

theorem hostAction_getIn_of_ge (s : State) {a : Nat} (ha : s.cfg.inSize ≤ a) :
    hostAction (.getIn a) s = .refused (.noSuchInCell a) := if_neg ha.not_gt

/-! ### OUT -/

theorem hostAction_setOut_of_lt (s : State) {a : Nat} {v : Byte} (ha : a < s.cfg.outSize) :
    hostAction (.setOut a v) s = .next { s with outW := s.outW.write a v } := if_pos ha

theorem hostAction_setOut_of_ge (s : State) {a : Nat} {v : Byte} (ha : s.cfg.outSize ≤ a) :
    hostAction (.setOut a v) s = .refused (.noSuchOutCell a) := if_neg ha.not_gt

theorem hostAction_getOut_of_some (s : State) {a : Nat} {b : Byte} (ha : a < s.cfg.outSize)
    (hb : s.outW.read a = some b) : hostAction (.getOut a) s = .next (reply (.outCell a) (zext16 b) s) := by
  rw [hostAction, if_pos ha, hb]

theorem hostAction_getOut_of_none (s : State) {a : Nat} (ha : a < s.cfg.outSize) (hb : s.outW.read a = none) :
    hostAction (.getOut a) s = .refused (.cellWithoutValue a) := by
  rw [hostAction, if_pos ha, hb]

theorem hostAction_getOut_of_ge (s : State) {a : Nat} (ha : s.cfg.outSize ≤ a) :
    hostAction (.getOut a) s = .refused (.noSuchOutCell a) := if_neg ha.not_gt

/-! ### The host's steps on windows -/

/-- Settles O12: the step stores with `Memory.write`, whose reads `Memory.read_write` gives cell by cell. -/
theorem hostWindowWrites : Obligations.HostWindowWrites := by
  intro s a v hf
  constructor <;> intro h <;> rw [step_action hf h]
  · exact ⟨fun ha => ⟨_, hostAction_setIn_of_lt (advance s) ha, rfl, fun b => Memory.read_write s.inW a b v⟩,
      hostAction_setIn_of_ge (advance s)⟩
  · exact ⟨fun ha => ⟨_, hostAction_setOut_of_lt (advance s) ha, rfl, fun b => Memory.read_write s.outW a b v⟩,
      hostAction_setOut_of_ge (advance s)⟩

/-- Settles O13: the advanced host position leaves the windows as they were, so each case is the rule of that access. -/
theorem hostWindowReads : Obligations.HostWindowReads := by
  intro s a hf
  constructor <;> intro h <;> rw [step_action hf h]
  · exact ⟨fun _ => hostAction_getIn_of_some (advance s), hostAction_getIn_of_none (advance s),
      hostAction_getIn_of_ge (advance s)⟩
  · exact ⟨fun _ => hostAction_getOut_of_some (advance s), hostAction_getOut_of_none (advance s),
      hostAction_getOut_of_ge (advance s)⟩

end Sys2Proof.Machine

/-! SUPPORT. The command words (R60 to R62): decoder and encoder are the same table, and which words are legal. -/

namespace Sys2Proof

open Machine

/-! ### The table of R62 -/

theorem encode_of_mem_commandTable : ∀ row ∈ commandTable, encode row.2 = row.1 := by decide

theorem encode_mem_commandTable (i : Instr) : (encode i, i) ∈ commandTable := by cases i <;> decide

theorem mem_commandTable {w : Word} {i : Instr} : (w, i) ∈ commandTable ↔ encode i = w :=
  ⟨encode_of_mem_commandTable (w, i), fun h => h ▸ encode_mem_commandTable i⟩

/-- Decoder and encoder are inverse to each other: the fields determine the word, and legal fields the command. -/
theorem decode_eq_ok {w : Word} {i : Instr} : decode w = .ok i ↔ encode i = w := by
  constructor
  · intro h
    exact fieldsOfWord_injective (decodeFields_ok h).symm
  · rintro rfl
    exact decodeFields_encode i

theorem decode_eq_ok_iff_mem_commandTable {w : Word} {i : Instr} : decode w = .ok i ↔ (w, i) ∈ commandTable :=
  decode_eq_ok.trans mem_commandTable.symm

/-- Settles O1: the decoder inverts the encoder, and the encoder is the table row by row. -/
theorem commandTableDecodes : Obligations.CommandTableDecodes :=
  fun _ _ => ⟨decode_eq_ok_iff_mem_commandTable, mem_commandTable.symm⟩

/-! ### The legality test of R61 in arithmetic -/

theorem zeroField_eq_zero {w : Word} : (fieldsOfWord w).zero = 0 ↔ w.toNat / 32 = 0 := by
  have := w.isLt
  rw [← BitVec.toNat_inj, fieldsOfWord, BitVec.extractLsb'_toNat, Nat.shiftRight_eq_div_pow, BitVec.ofNat_eq_ofNat,
    BitVec.toNat_zero]
  omega

theorem legal_fieldsOfWord (w : Word) :
    (fieldsOfWord w).legal = true ↔
      w.toNat / 32 = 0 ∧
        ((w.toNat / 16 % 2 = 0 ∧ w.toNat / 4 % 4 = 0) ∨
          (w.toNat / 16 % 2 = 1 ∧ (w.toNat % 2 = 0 ∨ (w.toNat / 4 % 2 = 0 ∧ w.toNat / 2 % 2 = 0)))) := by
  rw [CmdFields.legal, Bool.and_eq_true, beq_iff_eq, zeroField_eq_zero]
  refine and_congr_right fun _ => ?_
  simp only [fieldsOfWord, BitVec.getLsbD, Nat.testBit_eq_decide_div_mod_eq, Bool.or_eq_true, Bool.and_eq_true,
    Bool.not_eq_true', decide_eq_true_eq, decide_eq_false_iff_not]
  omega

/-- Settles O2: a word decodes exactly when its fields are legal, which `legal_fieldsOfWord` says in arithmetic. -/
theorem legalWordsByFieldRule : Obligations.LegalWordsByFieldRule := fun w =>
  ⟨(decodeFields_isOk (fieldsOfWord w)).trans (legal_fieldsOfWord w),
    exists_congr fun _ => decode_eq_ok_iff_mem_commandTable⟩

end Sys2Proof

/-! SUPPORT. What the encoders leave in OUT (R64, R65, R125, R146): the frame cell by cell, and the cells behind it. -/

namespace Sys2Proof.Machine

/-! ### A block written from cell 0 on -/

theorem Memory.read_writeBytes_zero_of_getElem? (m : Memory) {bs : List Byte} {k : Nat} {b : Byte}
    (h : bs[k]? = some b) : (m.writeBytes 0 bs).read k = some b := by
  obtain ⟨hk, -⟩ := List.getElem?_eq_some_iff.1 h
  rw [Memory.read_writeBytes, if_pos (by omega), Nat.sub_zero, h]

theorem Memory.read_writeBytes_zero_of_length_le (m : Memory) {bs : List Byte} {k : Nat} (h : bs.length ≤ k) :
    (m.writeBytes 0 bs).read k = m.read k := by
  rw [Memory.read_writeBytes, if_neg (by omega)]

/-! ### How an encoder ends -/

theorem encodeRtu_raise {s w : State} {data : List Byte} {k : ErrorKind} (h : encodeRtu s data = (w, .raise k)) :
    k = .insufficientCapacity := by
  rcases Nat.lt_or_ge s.outCap.toNat (data.length + 3) with hc | hc
  · rw [encodeRtu_short hc] at h
    cases h
    rfl
  · simp [encodeRtu_fits hc] at h

theorem encodeAscii_raise {s w : State} {data : List Byte} {k : ErrorKind} (h : encodeAscii s data = (w, .raise k)) :
    k = .insufficientCapacity := by
  rcases Nat.lt_or_ge s.outCap.toNat (2 * data.length + 7) with hc | hc
  · rw [encodeAscii_short hc] at h
    cases h
    rfl
  · simp [encodeAscii_fits hc] at h

/-- A checked encoder ends Ok, in `InsufficientCapacity`, or in `WindowOutOfRange`. -/
theorem exec_encoder_status {i : Instr} {s t : State} (hi : i = .ertu ∨ i = .easc) (h : exec i s = .next t) :
    t.status ∈ [0x00, 0x05, 0xF1] := by
  rcases exec_next h with ⟨-, -, rfl⟩ | ⟨data, -, ⟨w, r, -, rfl⟩ | ⟨-, w, k, hb, rfl⟩⟩
  · simp [statusCode]
  · simp [statusOk]
  · obtain rfl : k = .insufficientCapacity := by
      rcases hi with rfl | rfl
      · exact encodeRtu_raise hb
      · exact encodeAscii_raise hb
    simp [statusCode]

/-! ### The RTU frame -/

theorem rtuFrame_getElem?_zero (a : Byte) (pdu : List Byte) : (rtuFrame a pdu)[0]? = some a := rfl

theorem rtuFrame_getElem?_pdu (a : Byte) {pdu : List Byte} {k : Nat} (hk : k < pdu.length) :
    (rtuFrame a pdu)[1 + k]? = pdu[k]? := by
  rw [rtuFrame, Nat.add_comm, List.cons_append, List.getElem?_cons_succ, List.getElem?_append_left hk]

theorem rtuFrame_getElem?_crcLow (a : Byte) (pdu : List Byte) :
    (rtuFrame a pdu)[pdu.length + 1]? = some ((crc16 (a :: pdu)).extractLsb' 0 8) := by
  simp [rtuFrame, lowByte_eq_extract]

theorem rtuFrame_getElem?_crcHigh (a : Byte) (pdu : List Byte) :
    (rtuFrame a pdu)[pdu.length + 2]? = some ((crc16 (a :: pdu)).extractLsb' 8 8) := by
  simp [rtuFrame, highByte_eq_extract]

/-! ### `ERTU` -/

theorem exec_ertu_short {s : State} {data : List Byte} (hr : Ready s data) (hc : s.outCap.toNat < data.length + 3) :
    exec .ertu s = .next (errorState 0x05 s) := by
  rw [exec_of_ready hr, commandBody, encodeRtu_short hc]
  rfl

theorem exec_ertu_fits {s : State} {data : List Byte} (hr : Ready s data) (hc : data.length + 3 ≤ s.outCap.toNat) :
    exec .ertu s =
      .next (endState 0x00 0 0 0 0 0 (BitVec.ofNat 16 (data.length + 3))
        { s with outW := s.outW.writeBytes 0 (rtuFrame s.unit data) }) := by
  rw [exec_of_ready hr, commandBody, encodeRtu_fits hc]
  rfl

/-- Settles O37: the window written is `OUT` with the RTU frame from cell 0 on. -/
theorem ertuCommandResult : Obligations.ErtuCommandResult := by
  refine ⟨fun s data hr => ⟨exec_ertu_short hr, fun hc => ⟨_, exec_ertu_fits hr hc, ?_⟩⟩,
    fun _ _ => exec_encoder_status (.inl rfl)⟩
  have written {k : Nat} {b : Byte} (h : (rtuFrame s.unit data)[k]? = some b) :=
    Memory.read_writeBytes_zero_of_getElem? s.outW h
  refine ⟨written (rtuFrame_getElem?_zero ..), fun k hk => ?_, written (rtuFrame_getElem?_crcLow ..),
    written (rtuFrame_getElem?_crcHigh ..), fun a ha => ?_⟩
  · have hb := List.getElem?_eq_getElem hk
    rw [hb]
    exact written ((rtuFrame_getElem?_pdu _ hk).trans hb)
  · exact Memory.read_writeBytes_zero_of_length_le _ (by rwa [length_rtuFrame])

/-! ### The ASCII frame -/

theorem asciiFrame_getElem?_zero (a : Byte) (pdu : List Byte) : (asciiFrame a pdu)[0]? = some 0x3A := rfl

theorem asciiFrame_getElem?_hexChars (a : Byte) (pdu : List Byte) {j : Nat} {b : Byte}
    (h : (a :: pdu ++ [lrc (a :: pdu)])[j]? = some b) :
    (asciiFrame a pdu)[1 + 2 * j]? = some (hexChar (b.toNat / 16)) ∧
      (asciiFrame a pdu)[2 + 2 * j]? = some (hexChar (b.toNat % 16)) := by
  obtain ⟨hj, -⟩ := List.getElem?_eq_some_iff.1 h
  obtain ⟨hhigh, hlow⟩ := getElem?_flatMap_hexChars (a :: pdu ++ [lrc (a :: pdu)]) j
  rw [h] at hhigh hlow
  have hlen := length_flatMap_hexChars (a :: pdu ++ [lrc (a :: pdu)])
  rw [asciiFrame, show 1 + 2 * j = 2 * j + 1 by omega, show 2 + 2 * j = 2 * j + 1 + 1 by omega,
    List.getElem?_cons_succ, List.getElem?_cons_succ, List.getElem?_append_left (by omega),
    List.getElem?_append_left (by omega)]
  exact ⟨hhigh, hlow⟩

/-- CR and LF stand behind `:` and the two characters of each byte. -/
theorem asciiFrame_getElem?_crlf (a : Byte) (pdu : List Byte) (k : Nat) :
    (asciiFrame a pdu)[2 * pdu.length + 5 + k]? = [chCR, chLF][k]? := by
  have hlen : ((a :: pdu ++ [lrc (a :: pdu)]).flatMap hexChars).length = 2 * pdu.length + 4 := by
    rw [length_flatMap_hexChars, List.length_append, List.length_cons, List.length_singleton]
    omega
  rw [asciiFrame, show 2 * pdu.length + 5 + k = 2 * pdu.length + 4 + k + 1 by omega, List.getElem?_cons_succ, ← hlen,
    List.getElem?_append_right (Nat.le_add_right ..), Nat.add_sub_cancel_left]

/-! ### `EASC` -/

theorem exec_easc_short {s : State} {data : List Byte} (hr : Ready s data)
    (hc : s.outCap.toNat < 2 * data.length + 7) : exec .easc s = .next (errorState 0x05 s) := by
  rw [exec_of_ready hr, commandBody, encodeAscii_short hc]
  rfl

theorem exec_easc_fits {s : State} {data : List Byte} (hr : Ready s data)
    (hc : 2 * data.length + 7 ≤ s.outCap.toNat) :
    exec .easc s =
      .next (endState 0x00 0 0 0 0 0 (BitVec.ofNat 16 (2 * data.length + 7))
        { s with outW := s.outW.writeBytes 0 (asciiFrame s.unit data) }) := by
  rw [exec_of_ready hr, commandBody, encodeAscii_fits hc]
  rfl

/-- Settles O49: the window written is `OUT` with the ASCII frame from cell 0 on. -/
theorem eascCommandResult : Obligations.EascCommandResult := by
  refine ⟨fun s data hr => ⟨exec_easc_short hr, fun hc => ⟨_, exec_easc_fits hr hc, ?_⟩⟩,
    fun _ _ => exec_encoder_status (.inr rfl)⟩
  have written {k : Nat} {b : Byte} (h : (asciiFrame s.unit data)[k]? = some b) :=
    Memory.read_writeBytes_zero_of_getElem? s.outW h
  refine ⟨written (asciiFrame_getElem?_zero ..), fun j b hb => ?_, written (asciiFrame_getElem?_crlf _ _ 0),
    written (asciiFrame_getElem?_crlf _ _ 1), fun a ha => ?_⟩
  · obtain ⟨hhigh, hlow⟩ := asciiFrame_getElem?_hexChars _ _ hb
    exact ⟨written hhigh, written hlow⟩
  · exact Memory.read_writeBytes_zero_of_length_le _ (by rwa [length_asciiFrame])

end Sys2Proof.Machine

/-! SUPPORT. The commands that only compute a value of the live bytes (R105, R106): one end, one answer, no window write. -/

namespace Sys2Proof.Machine

/-- The pseudocode of `i` ends `done` on all live bytes, names `RESULT` = `f data` alone, and writes no cell. -/
def AnswersOnly (i : Instr) (f : List Byte → Word) : Prop :=
  ∀ s data, commandBody i s data = (s, .done { result := f data })

theorem answersOnly_crc16 : AnswersOnly .crc16 crc16 := fun _ _ => rfl

theorem answersOnly_lrc : AnswersOnly .lrc fun data => zext16 (lrc data) := fun _ _ => rfl

@[simp] theorem commandEnd_done (i : Instr) (s : State) (r : Results) :
    commandEnd i (s, .done r) = .next (commandDone r s) := by
  unfold commandEnd
  split <;> rfl

theorem AnswersOnly.exec_of_ready {i : Instr} {f : List Byte → Word} (hi : AnswersOnly i f) {s : State}
    {data : List Byte} (hr : Ready s data) : exec i s = .next (endState 0x00 (f data) 0 0 0 0 0 s) := by
  rw [Machine.exec_of_ready hr, hi, commandEnd_done, commandDone_eq_endState]

/-- The prologue's range check is the only error: the pseudocode raises none. -/
theorem AnswersOnly.status {i : Instr} {f : List Byte → Word} (hi : AnswersOnly i f) {s t : State}
    (h : exec i s = .next t) : t.status = 0x00 ∨ (t.status = 0xF1 ∧ ¬ InRange s) := by
  rcases exec_next h with ⟨-, hr, rfl⟩ | ⟨data, -, ⟨w, r, -, rfl⟩ | ⟨-, w, k, hb, -⟩⟩
  · exact .inr ⟨rfl, hr⟩
  · exact .inl rfl
  · rw [hi] at hb
    cases hb

/-- Settles O31: `CRC16` only answers `crc16` of the live bytes. -/
theorem crc16CommandResult : Obligations.Crc16CommandResult :=
  ⟨fun _ _ => answersOnly_crc16.exec_of_ready, fun _ _ => answersOnly_crc16.status⟩

/-- Settles O32: `LRC` only answers `lrc` of the live bytes, zero-extended. -/
theorem lrcCommandResult : Obligations.LrcCommandResult :=
  ⟨fun _ _ => answersOnly_lrc.exec_of_ready, fun _ _ => answersOnly_lrc.status⟩

end Sys2Proof.Machine

/-! SUPPORT. The RTU parse commands (R123, R124): one rule per end. -/

namespace Sys2Proof.Machine

theorem exec_rtuCommand_of_ready (dir : Dir) {s : State} {data : List Byte} (hr : Ready s data) :
    exec (rtuCommand dir) s = endChecked (s, parseRtu dir data) := by
  rw [exec_of_ready hr]
  cases dir <;> rfl

theorem exec_rtuCommand_short {dir : Dir} {s : State} {data : List Byte} (hr : Ready s data)
    (h : ¬ ∃ len, FrameThere dir data len) : exec (rtuCommand dir) s = .next (errorState 0x01 s) := by
  rw [exec_rtuCommand_of_ready dir hr, parseRtu_short h, endChecked_raise, raiseError_eq_errorState, statusCode]

theorem exec_rtuCommand_there {dir : Dir} {s : State} {data : List Byte} {len : Nat} (hr : Ready s data)
    (hf : FrameThere dir data len) (ht : TrailerRight data len) :
    exec (rtuCommand dir) s =
      .next (endState 0x00 0 ((data.getD 0 0).setWidth 16) 1 (BitVec.ofNat 16 len) (BitVec.ofNat 16 (len + 3)) 0
        s) := by
  rw [exec_rtuCommand_of_ready dir hr, parseRtu_there hf ht, endChecked_done, commandDone_eq_endState, byteAt_eq_getD,
    zext16, lengthWord, lengthWord]

theorem exec_rtuCommand_corrupt {dir : Dir} {s : State} {data : List Byte} {len : Nat} (hr : Ready s data)
    (hf : FrameThere dir data len) (ht : ¬ TrailerRight data len) :
    exec (rtuCommand dir) s = .next (errorState 0x03 s) := by
  rw [exec_rtuCommand_of_ready dir hr, parseRtu_corrupt hf ht, endChecked_raise, raiseError_eq_errorState, statusCode]

/-- R123's test on the frame, as the statements write it: both trailer bytes stand behind address and PDU. -/
theorem trailerRight_iff_getElem? {data : List Byte} {len : Nat} (h : len + 3 ≤ data.length) :
    TrailerRight data len ↔
      data[len + 1]? = some ((crc16 (data.take (len + 1))).extractLsb' 0 8) ∧
        data[len + 2]? = some ((crc16 (data.take (len + 1))).extractLsb' 8 8) := by
  rw [TrailerRight, getElem?_eq_some_iff_byteAt (by omega), getElem?_eq_some_iff_byteAt (by omega),
    lowByte_eq_extract, highByte_eq_extract]

/-- No frame is there in each of the three cases of R123 that end in `BufferTooShort`. -/
theorem not_frameThere_of_short {dir : Dir} {data : List Byte}
    (h : data.length < 2 ∨ rtuPduLen dir data = none ∨ ∃ len, rtuPduLen dir data = some len ∧ data.length < len + 3) :
    ¬ ∃ len, FrameThere dir data len := by
  rintro ⟨len, h2, hlen, hthere⟩
  rcases h with hshort | hnone | ⟨len', hlen', hshort⟩
  · omega
  · cases hlen.symm.trans hnone
  · cases hlen.symm.trans hlen'
    omega

/-- Settles O36: the three ends are those of `parseRtu`, told apart by `FrameThere` and `TrailerRight`. -/
theorem prtuCommandResult : Obligations.PrtuCommandResult := by
  intro dir s data hr
  refine ⟨fun h => exec_rtuCommand_short hr (not_frameThere_of_short h), fun len h2 hlen hthere => ?_⟩
  have hf : FrameThere dir data len := ⟨h2, hlen, hthere⟩
  rw [← trailerRight_iff_getElem? hthere]
  exact ⟨exec_rtuCommand_there hr hf, exec_rtuCommand_corrupt hr hf⟩

end Sys2Proof.Machine

/-! SUPPORT. The ASCII scan by index (R142), and the proper initial parts of a parsable ASCII frame. -/

namespace Sys2Proof.Machine

/-! ### What the scan accepts -/

theorem byteAt_of_getElem? {s : List Byte} {i : Nat} {b : Byte} (h : s[i]? = some b) : byteAt s i = b := by
  rw [byteAt, List.getD_eq_getElem?_getD, h, Option.getD_some]

/-- The bytes at 1 to 2n are hex digits. -/
def HexUpTo (data : List Byte) (n : Nat) : Prop :=
  ∀ j, 1 ≤ j → j ≤ 2 * n → ∃ b, data[j]? = some b ∧ isHex b = true

theorem HexUpTo.isHex_byteAt {data : List Byte} {n : Nat} (h : HexUpTo data n) {j : Nat} (h1 : 1 ≤ j)
    (h2 : j ≤ 2 * n) : isHex (byteAt data j) = true := by
  obtain ⟨b, hb, hex⟩ := h j h1 h2
  rwa [byteAt_of_getElem? hb]

/-- A frame of R65 with `m` decoded bytes stands at the start of `data`, byte by byte. -/
structure AsciiFrameAt (data : List Byte) (m : Nat) : Prop where
  three_le : 3 ≤ m
  colon : data[0]? = some chColon
  hex : HexUpTo data m
  cr : data[2 * m + 1]? = some chCR
  lf : data[2 * m + 2]? = some chLF

theorem AsciiFrameAt.le_length {data : List Byte} {m : Nat} (h : AsciiFrameAt data m) : 2 * m + 3 ≤ data.length :=
  (List.getElem?_eq_some_iff.1 h.lf).1

theorem asciiFrameAt_of_asciiScan {data : List Byte} {m : Nat} (h : asciiScan data = .ok m) :
    AsciiFrameAt data m := by
  obtain ⟨pairs, rest, rfl, hlen, h3, hall⟩ := asciiScan_ok.1 h
  have behind (k : Nat) : (chColon :: (pairs ++ chCR :: chLF :: rest))[2 * m + k + 1]? = (chCR :: chLF :: rest)[k]? := by
    rw [List.getElem?_cons_succ, ← hlen, List.getElem?_append_right (Nat.le_add_right ..), Nat.add_sub_cancel_left]
  refine ⟨h3, rfl, fun j h1 h2 => ?_, behind 0, behind 1⟩
  obtain ⟨i, rfl⟩ := Nat.exists_eq_add_of_le' h1
  have hi : i < pairs.length := by omega
  exact ⟨pairs[i], by rw [List.getElem?_cons_succ, List.getElem?_append_left hi, List.getElem?_eq_getElem hi],
    hall _ (List.getElem_mem hi)⟩

theorem AsciiFrameAt.asciiScan_eq_ok {data : List Byte} {m : Nat} (h : AsciiFrameAt data m) :
    asciiScan data = .ok m := by
  have hlen := h.le_length
  have hcrlf : data.drop (1 + 2 * m) = chCR :: chLF :: data.drop (2 * m + 3) := by
    rw [Nat.add_comm, List.drop_eq_getElem_cons (by omega), List.drop_eq_getElem_cons (by omega),
      (List.getElem?_eq_some_iff.1 h.cr).2, (List.getElem?_eq_some_iff.1 h.lf).2]
  rw [asciiScan_skip (by omega) (byteAt_of_getElem? h.colon) (fun _ => h.hex.isHex_byteAt), hcrlf, scanPairs_crlf,
    if_neg h.three_le.not_gt]

theorem asciiScan_eq_ok_iff_asciiFrameAt {data : List Byte} {m : Nat} :
    asciiScan data = .ok m ↔ AsciiFrameAt data m :=
  ⟨asciiFrameAt_of_asciiScan, AsciiFrameAt.asciiScan_eq_ok⟩

/-- Settles O45: what the scan accepts is the frame `:`, hex pairs, CR, LF, read off index by index. -/
theorem asciiScanAcceptsExactlyFrames : Obligations.AsciiScanAcceptsExactlyFrames := fun _ _ =>
  asciiScan_eq_ok_iff_asciiFrameAt.trans
    ⟨fun h => ⟨h.three_le, h.colon, h.hex, h.cr, h.lf⟩, fun ⟨h3, h0, hhex, hcr, hlf⟩ => ⟨h3, h0, hhex, hcr, hlf⟩⟩

/-! ### Initial parts of a frame -/

/-- The bytes end where a pair begins, or after one byte that offends nothing: more bytes are needed. -/
theorem scanPairs_of_length_le_one {s : List Byte} (hl : s.length ≤ 1) (hs : ∀ b ∈ s, b = chCR ∨ isHex b = true)
    (m : Nat) : scanPairs s m = .error .bufferTooShort := by
  match s, hl with
  | [], _ => rfl
  | [b], _ =>
    rcases hs b (List.mem_singleton_self b) with rfl | hex
    · rfl
    · rw [scanPairs, if_pos hex, ite_self]

/-- The scan passes the whole pairs of an initial part of a frame; then at most one byte is left, a digit or the CR. -/
theorem AsciiFrameAt.asciiScan_take {data : List Byte} {m k : Nat} (h : AsciiFrameAt data m) (hk : k < 2 * m + 3) :
    asciiScan (data.take k) = .error .bufferTooShort := by
  have hlen := h.le_length
  rcases Nat.eq_zero_or_pos k with rfl | hpos
  · rfl
  obtain ⟨n, hn⟩ : ∃ n, k = 2 * n + 1 ∨ k = 2 * n + 2 := ⟨(k - 1) / 2, by omega⟩
  have htake : (data.take k).length = k := List.length_take_of_le (by omega)
  have hcolon : byteAt (data.take k) 0 = chColon := by rw [byteAt_take hpos, byteAt_of_getElem? h.colon]
  have hhex (j : Nat) (h1 : 1 ≤ j) (h2 : j ≤ 2 * n) : isHex (byteAt (data.take k) j) = true := by
    rw [byteAt_take (by omega)]
    exact h.hex.isHex_byteAt h1 (by omega)
  have hlast : byteAt data (2 * n + 1) = chCR ∨ isHex (byteAt data (2 * n + 1)) = true := by
    rcases Nat.eq_or_lt_of_le (show n ≤ m by omega) with rfl | hnm
    · exact .inl (byteAt_of_getElem? h.cr)
    · exact .inr (h.hex.isHex_byteAt (by omega) (by omega))
  rw [asciiScan_skip (by omega) hcolon hhex]
  refine scanPairs_of_length_le_one (by rw [List.length_drop]; omega) (fun b hb => ?_) n
  obtain ⟨i, hi, rfl⟩ := List.mem_iff_getElem.1 hb
  rw [List.length_drop] at hi
  obtain rfl : i = 0 := by omega
  rw [List.getElem_drop, List.getElem_take, ← List.getD_eq_getElem _ 0, ← byteAt_eq_getD]
  simpa only [Nat.add_comm 1, Nat.add_zero] using hlast

/-! ### `PASC` -/

theorem exec_pasc_of_ready {s : State} {data : List Byte} (hr : Ready s data) :
    exec .pasc s = endChecked (parseAscii s data) := by
  rw [exec_of_ready hr]
  rfl

theorem exec_pasc_of_scan_error {s : State} {data : List Byte} {k : ErrorKind} (hr : Ready s data)
    (hs : asciiScan data = .error k) : exec .pasc s = .next (errorState (statusCode k) s) := by
  rw [exec_pasc_of_ready hr, parseAscii_error hs, endChecked_raise, raiseError_eq_errorState]

/-- A command that ends Ok on live bytes `data` is one of the successes. -/
theorem success_of_exec {i : Instr} {s t : State} {data : List Byte} (hr : Ready s data) (h : exec i s = .next t)
    (ht : t.status = statusOk) : ∃ w r, Success s data i w r ∧ t = commandDone r w := by
  rw [exec_of_ready hr] at h
  rcases commandBody_cases i hr with ⟨w, r, hb⟩ | ⟨w, k, hb⟩
  · rw [hb, commandEnd_done] at h
    cases h
    exact ⟨w, r, commandBody_done hr hb, rfl⟩
  · rw [hb, commandEnd] at h
    split at h
    · cases h
      exact absurd ht (statusCode_ne_ok k)
    · cases h

/-- `PASC` that ends Ok has found a frame, and gives its length. -/
theorem asciiFrameAt_of_exec_pasc {s t : State} {data : List Byte} (hr : Ready s data) (h : exec .pasc s = .next t)
    (ht : t.status = statusOk) : ∃ m, AsciiFrameAt data m ∧ t.frameLen.toNat = 2 * m + 3 := by
  obtain ⟨w, r, hsucc, rfl⟩ := success_of_exec hr h ht
  cases hsucc with
  | ascii _ m hs _ =>
    have hf := asciiFrameAt_of_asciiScan hs
    exact ⟨m, hf, lengthWord_toNat (hf.le_length.trans_lt hr.length_lt)⟩
  | checksum hi | encRtu hi | encAscii hi => simp at hi
  | rtu dir hi => cases dir <;> simp [rtuCommand, rtuCommandU] at hi

/-- Settles O53: a proper initial part of the frame that `PASC` found ends the scan in `BufferTooShort`. -/
theorem asciiStrictPrefixNeedsMoreBytes : Obligations.AsciiStrictPrefixNeedsMoreBytes := by
  intro s t u data k hr h ht hk hu
  obtain ⟨m, hf, hlen⟩ := asciiFrameAt_of_exec_pasc hr h ht
  exact exec_pasc_of_scan_error hu (hf.asciiScan_take (hlen ▸ hk))

end Sys2Proof.Machine

/-! SUPPORT. The unchecked commands (R160 to R165): each changes the state as its checked twin where the twin ends Ok, and
faults where the twin ends in an error; so what they do is read off the rules of the twins. -/

namespace Sys2Proof.Machine

/-! ### An unchecked command and its twin -/

section Twin

variable {i j : Instr} {s t : State} (hij : checkedTwin i = some j)

include hij

theorem exec_of_twin_ok (h : exec j s = .next t) (ht : t.status = statusOk) : exec i s = .next t := by
  rcases exec_next h with ⟨-, -, rfl⟩ | ⟨data, hr, ⟨w, r, hb, rfl⟩ | ⟨-, w, k, -, rfl⟩⟩
  · exact absurd ht (statusCode_ne_ok .windowOutOfRange)
  · rw [exec_of_ready hr, checkedTwin_body hij, hb, commandEnd_done]
  · exact absurd ht (statusCode_ne_ok k)

theorem exec_of_twin_error (hin : InRange s) (h : exec j s = .next t) (ht : t.status ≠ statusOk) :
    exec i s = .fault .uncheckedPrecondition := by
  rcases exec_next h with ⟨-, hout, -⟩ | ⟨data, hr, ⟨w, r, -, rfl⟩ | ⟨-, w, k, hb, -⟩⟩
  · exact absurd hin hout
  · exact absurd rfl ht
  · rw [exec_of_ready hr, checkedTwin_body hij, hb, commandEnd, (checkedTwin_isChecked hij).1]
    rfl

theorem exec_of_twin_errorState {data : List Byte} {code : Byte} (hr : Ready s data)
    (h : exec j s = .next (errorState code t)) (hcode : code ≠ statusOk) :
    exec i s = .fault .uncheckedPrecondition := by
  obtain ⟨-, hin, -⟩ := hr
  exact exec_of_twin_error hij hin h hcode

/-- None of the error kinds of the pseudocode is left: only the prologue's range check reports one (R160). -/
theorem exec_unchecked_status (h : exec i s = .next t) : t.status = 0x00 ∨ (t.status = 0xF1 ∧ ¬ InRange s) := by
  rcases exec_next h with ⟨-, hout, rfl⟩ | ⟨data, -, ⟨w, r, -, rfl⟩ | ⟨hchecked, -⟩⟩
  · exact .inr ⟨rfl, hout⟩
  · exact .inl rfl
  · cases (checkedTwin_isChecked hij).1.symm.trans hchecked

end Twin

/-! ### `PRTU.REQ.U`, `PRTU.RSP.U` -/

theorem checkedTwin_rtuCommandU (dir : Dir) : checkedTwin (rtuCommandU dir) = some (rtuCommand dir) := by
  cases dir <;> rfl

theorem exec_rtuCommandU_there {dir : Dir} {s : State} {data : List Byte} {len : Nat} (hr : Ready s data)
    (hf : FrameThere dir data len) (ht : TrailerRight data len) :
    exec (rtuCommandU dir) s =
      .next (endState 0x00 0 ((data.getD 0 0).setWidth 16) 1 (BitVec.ofNat 16 len) (BitVec.ofNat 16 (len + 3)) 0
        s) :=
  exec_of_twin_ok (checkedTwin_rtuCommandU dir) (exec_rtuCommand_there hr hf ht) rfl

/-- The twin ends in `BufferTooShort` or in `ChecksumMismatch`. -/
theorem exec_rtuCommandU_fault {dir : Dir} {s : State} {data : List Byte} (hr : Ready s data)
    (h : ¬ ∃ len, FrameThere dir data len ∧ TrailerRight data len) :
    exec (rtuCommandU dir) s = .fault .uncheckedPrecondition := by
  have twin := checkedTwin_rtuCommandU dir
  by_cases hf : ∃ len, FrameThere dir data len
  · obtain ⟨len, hf⟩ := hf
    exact exec_of_twin_errorState twin hr (exec_rtuCommand_corrupt hr hf fun ht => h ⟨len, hf, ht⟩) (by decide)
  · exact exec_of_twin_errorState twin hr (exec_rtuCommand_short hr hf) (by decide)

/-- Settles O56: the precondition is `FrameThere` with `TrailerRight`, where the checked parse ends Ok. -/
theorem prtuUncheckedResult : Obligations.PrtuUncheckedResult := by
  refine ⟨fun dir s data hr => ⟨fun len h2 hlen hthere hlow hhigh => ?_, fun h => ?_⟩,
    fun dir _ _ => exec_unchecked_status (checkedTwin_rtuCommandU dir)⟩
  · exact exec_rtuCommandU_there hr ⟨h2, hlen, hthere⟩ ((trailerRight_iff_getElem? hthere).2 ⟨hlow, hhigh⟩)
  · refine exec_rtuCommandU_fault hr fun ⟨len, ⟨h2, hlen, hthere⟩, ht⟩ => h ⟨len, h2, hlen, hthere, ?_⟩
    exact (trailerRight_iff_getElem? hthere).1 ht

/-! ### `PASC` on a frame the scan accepts, and `PASC.U` -/

section Scanned

variable {s : State} {data : List Byte} {m : Nat} (hr : Ready s data) (hs : asciiScan data = .ok m)

include hr hs

theorem exec_pasc_of_lrc (hl : (pairsFrom data 0 m)[m - 1]? = some (lrc ((pairsFrom data 0 m).take (m - 1)))) :
    exec .pasc s =
      .next (endState 0x00 0 (((pairsFrom data 0 m).getD 0 0).setWidth 16) 2 (BitVec.ofNat 16 (m - 2))
        (BitVec.ofNat 16 (2 * m + 3)) 0 { s with inW := s.inW.writeBytes 1 (pairsFrom data 0 m) }) := by
  rw [exec_pasc_of_ready hr, parseAscii_scanned hr hs]
  dsimp only
  rw [if_neg (not_not.2 (byteAt_of_getElem? hl)), endChecked_done, commandDone_eq_endState, byteAt_eq_getD, zext16,
    lengthWord, lengthWord]

theorem exec_pasc_of_lrc_ne (hl : (pairsFrom data 0 m)[m - 1]? ≠ some (lrc ((pairsFrom data 0 m).take (m - 1)))) :
    exec .pasc s = .next (errorState 0x03 { s with inW := s.inW.writeBytes 1 (pairsFrom data 0 m) }) := by
  have h3 := (asciiFrameAt_of_asciiScan hs).three_le
  rw [ne_eq, getElem?_eq_some_iff_byteAt (by rw [length_pairsFrom]; omega)] at hl
  rw [exec_pasc_of_ready hr, parseAscii_scanned hr hs]
  dsimp only
  rw [if_pos hl, endChecked_raise, raiseError_eq_errorState, statusCode]

end Scanned

/-- The decoded bytes are those the statements give one by one. -/
theorem eq_pairsFrom {data d : List Byte} {m : Nat} (hd : d.length = m)
    (h : ∀ k < m, d[k]? =
      some (BitVec.ofNat 8 (16 * hexVal (data.getD (1 + 2 * k) 0) + hexVal (data.getD (2 + 2 * k) 0)))) :
    d = pairsFrom data 0 m := by
  refine List.ext_getElem? fun k => ?_
  rcases Nat.lt_or_ge k m with hk | hk
  · rw [h k hk, getElem?_pairsFrom _ _ _ _ hk, Nat.zero_add, hexPair, byteAt_eq_getD, byteAt_eq_getD]
  · rw [List.getElem?_eq_none (by omega), List.getElem?_eq_none (by rwa [length_pairsFrom])]

theorem Memory.read_writeBytes_one (m : Memory) (d : List Byte) {k : Nat} (hk : k < d.length) :
    (m.writeBytes 1 d).read (1 + k) = d[k]? := by
  rw [Memory.read_writeBytes, if_pos (by omega), Nat.add_sub_cancel_left]

theorem Memory.read_writeBytes_one_outside (m : Memory) (d : List Byte) {a : Nat} (ha : a = 0 ∨ d.length + 1 ≤ a) :
    (m.writeBytes 1 d).read a = m.read a := by
  rw [Memory.read_writeBytes, if_neg (by omega)]

/-- Settles O57: on a frame the scan accepts, the LRC tells the two ends of `PASC` apart; a scan error is an error of
`PASC` too. -/
theorem pascUncheckedResult : Obligations.PascUncheckedResult := by
  have twin : checkedTwin .pascU = some .pasc := rfl
  refine ⟨fun s data hr => ⟨fun m d hs hlen hd => ?_, fun k hk => ?_⟩, fun _ _ => exec_unchecked_status twin⟩
  · obtain rfl := eq_pairsFrom hlen hd
    refine ⟨fun hl => ⟨s.inW.writeBytes 1 (pairsFrom data 0 m), fun k hk => ?_, fun a ha => ?_, ?_⟩, fun hl => ?_⟩
    · exact Memory.read_writeBytes_one _ _ (hlen.symm ▸ hk)
    · exact Memory.read_writeBytes_one_outside _ _ (hlen.symm ▸ ha)
    · exact exec_of_twin_ok twin (exec_pasc_of_lrc hr hs hl) rfl
    · exact exec_of_twin_errorState twin hr (exec_pasc_of_lrc_ne hr hs hl) (by decide)
  · exact exec_of_twin_errorState twin hr (exec_pasc_of_scan_error hr hk) (statusCode_ne_ok k)

/-! ### `ERTU.U`, `EASC.U` -/

theorem rtuFrame_eq (a : Byte) (pdu : List Byte) :
    rtuFrame a pdu =
      a :: pdu ++ [(crc16 (a :: pdu)).extractLsb' 0 8, (crc16 (a :: pdu)).extractLsb' 8 8] := by
  rw [rtuFrame, lowByte_eq_extract, highByte_eq_extract]

theorem Memory.bytes_writeBytes_rtuFrame (m : Memory) (a : Byte) (pdu : List Byte) :
    (m.writeBytes 0 (rtuFrame a pdu)).bytes 0 (pdu.length + 3) =
      some (a :: pdu ++ [(crc16 (a :: pdu)).extractLsb' 0 8, (crc16 (a :: pdu)).extractLsb' 8 8]) := by
  rw [← length_rtuFrame a pdu, Memory.bytes_writeBytes, rtuFrame_eq]

/-- Settles O58: the twin `ERTU` writes the RTU frame, or reports too little capacity. -/
theorem ertuUncheckedResult : Obligations.ErtuUncheckedResult := by
  have twin : checkedTwin .ertuU = some .ertu := rfl
  refine ⟨fun s data hr => ⟨fun hc => ?_, fun hc => ?_⟩, fun _ _ => exec_unchecked_status twin⟩
  · exact exec_of_twin_errorState twin hr (exec_ertu_short hr hc) (by decide)
  · refine ⟨_, exec_of_twin_ok twin (exec_ertu_fits hr hc) rfl, Memory.bytes_writeBytes_rtuFrame .., fun a ha => ?_⟩
    exact Memory.read_writeBytes_zero_of_length_le _ (by rwa [length_rtuFrame])

/-- Settles O59: the twin `EASC` writes the ASCII frame, or reports too little capacity; the window is the twin's. -/
theorem eascUncheckedResult : Obligations.EascUncheckedResult := by
  have twin : checkedTwin .eascU = some .easc := rfl
  refine ⟨fun s data hr => ⟨fun hc => ?_, fun hc => ?_⟩, fun _ _ => exec_unchecked_status twin⟩
  · exact exec_of_twin_errorState twin hr (exec_easc_short hr hc) (by decide)
  · obtain ⟨-, fits⟩ := eascCommandResult.1 s data hr
    obtain ⟨w, hexec, hcells⟩ := fits hc
    exact ⟨w, exec_of_twin_ok twin hexec rfl, hcells⟩

end Sys2Proof.Machine

/-! SUPPORT. Bytes appended after the live window (R175): what an RTU parse and `PASC` answer once they
have seen enough. -/

namespace Sys2Proof.Machine

/-! ### RTU frames -/

theorem knownCode_of_table {fc : Byte}
    (h : fc.toNat ∈ [0x01, 0x02, 0x03, 0x04, 0x05, 0x06, 0x0F, 0x10] ∨ 0x80 ≤ fc.toNat) : KnownCode fc := by
  unfold KnownCode shapeOf
  split_ifs <;> simp_all

theorem FrameThere.append {dir : Dir} {data : List Byte} {len : Nat} (h : FrameThere dir data len)
    (hk : KnownCode (byteAt data 1)) (more : List Byte) : FrameThere dir (data ++ more) len := by
  obtain ⟨h2, hlen, hthere⟩ := h
  have htake : (data ++ more).take (len + 1) = data.take (len + 1) := List.take_append_of_le_length (by omega)
  have hle : data.length ≤ (data ++ more).length := List.length_append ▸ Nat.le_add_right ..
  exact ⟨h2.trans hle, rtuPduLen_congr hlen (by omega) htake (.inl hk), hthere.trans hle⟩

theorem trailerRight_append {data : List Byte} {len : Nat} (h : len + 3 ≤ data.length) (more : List Byte) :
    TrailerRight (data ++ more) len ↔ TrailerRight data len := by
  rw [TrailerRight, TrailerRight, byteAt_append_left (by omega), byteAt_append_left (by omega),
    List.take_append_of_le_length (by omega)]

/-- Settles O42: another `STATUS` than `BufferTooShort` means that the whole frame is there; it and its trailer stay
where they are, since a known function code gives its length from the frame's own bytes. -/
theorem rtuVerdictStandsWhenBytesAreAppended : Obligations.RtuVerdictStandsWhenBytesAreAppended := by
  intro dir s t u data more hr h ht hcode hu
  by_cases hframe : ∃ len, FrameThere dir data len
  · obtain ⟨len, hf⟩ := hframe
    have hf' := hf.append (knownCode_of_table hcode) more
    have ⟨_, _, hthere⟩ := hf
    have hiff := trailerRight_append hthere more
    by_cases hright : TrailerRight data len
    · cases (exec_rtuCommand_there hr hf hright).symm.trans h
      rw [exec_rtuCommand_there hu hf' (hiff.2 hright), ← byteAt_eq_getD, byteAt_append_left (by omega),
        byteAt_eq_getD]
      rfl
    · cases (exec_rtuCommand_corrupt hr hf hright).symm.trans h
      exact exec_rtuCommand_corrupt hu hf' (hright ∘ hiff.1)
  · cases (exec_rtuCommand_short hr hframe).symm.trans h
    exact absurd rfl ht

/-! ### The ASCII scan -/

/-- The loop stops at the first offence or at the CR, LF, and does not look at what follows. -/
theorem scanPairs_append_of_ne_short {bytes : List Byte} {m : Nat} (h : scanPairs bytes m ≠ .error .bufferTooShort)
    (more : List Byte) : scanPairs (bytes ++ more) m = scanPairs bytes m := by
  induction bytes, m using scanPairs.induct with
  | case1 m => exact absurd rfl h
  | case2 m => exact absurd rfl h
  | case3 b m hcr hhex => exact absurd (by simp [scanPairs, hcr, hhex]) h
  | case4 b m hcr hhex => cases more <;> simp [scanPairs, hcr, hhex]
  | case10 b l rest m hcr hhex hl ih =>
    have hb : isHex b = true := by simpa using hhex
    have hl' : isHex l = true := by simpa using hl
    rw [scanPairs_hex hb hl'] at h ⊢
    rw [List.cons_append, List.cons_append, scanPairs_hex hb hl', ih h]
  | case5 | case6 | case7 | case8 | case9 => simp_all [scanPairs]

theorem asciiScan_append_of_ne_short {data : List Byte} (h : asciiScan data ≠ .error .bufferTooShort)
    (more : List Byte) : asciiScan (data ++ more) = asciiScan data := by
  cases data with
  | nil => exact absurd rfl h
  | cons first rest =>
    by_cases hcolon : first = chColon
    · subst hcolon
      exact scanPairs_append_of_ne_short h more
    · simp [asciiScan, hcolon]

/-- The scan has seen a whole candidate frame: it accepts it, or finds it too small (R142). -/
def ReachesTerminator (scan : Except ErrorKind Nat) : Prop := (∃ m, scan = .ok m) ∨ scan = .error .lengthMismatch

theorem scanPairs_crlf_reachesTerminator (rest : List Byte) (m : Nat) :
    ReachesTerminator (scanPairs (chCR :: chLF :: rest) m) := by
  rw [scanPairs_crlf]
  split
  · exact .inr rfl
  · exact .inl ⟨m, rfl⟩

/-- Where the bytes end inside the loop, the rest of the pair begun (if any), CR and LF complete them. -/
theorem scanPairs_completion {bytes : List Byte} {m : Nat} (h : scanPairs bytes m = .error .bufferTooShort) :
    ∃ more : List Byte, more.length ≤ 3 ∧ ReachesTerminator (scanPairs (bytes ++ more) m) := by
  induction bytes, m using scanPairs.induct with
  | case1 m => exact ⟨[chCR, chLF], by decide, scanPairs_crlf_reachesTerminator [] m⟩
  | case2 m => exact ⟨[chLF], by decide, scanPairs_crlf_reachesTerminator [] m⟩
  | case3 b m hcr hhex =>
    refine ⟨[hexChar 0, chCR, chLF], by decide, ?_⟩
    rw [List.singleton_append, scanPairs_hex hhex (isHex_hexChar (by decide))]
    exact scanPairs_crlf_reachesTerminator [] (m + 1)
  | case10 b l rest m hcr hhex hl ih =>
    have hb : isHex b = true := by simpa using hhex
    have hl' : isHex l = true := by simpa using hl
    rw [scanPairs_hex hb hl'] at h
    obtain ⟨more, hlen, hreach⟩ := ih h
    exact ⟨more, hlen, by rwa [List.cons_append, List.cons_append, scanPairs_hex hb hl']⟩
  | case7 l rest m hlf hm => simp [scanPairs, hlf, hm] at h
  | case4 | case5 | case6 | case8 | case9 => simp_all [scanPairs]

theorem asciiScan_completion {data : List Byte} (h : asciiScan data = .error .bufferTooShort) :
    ∃ more : List Byte, more.length ≤ 3 ∧ ReachesTerminator (asciiScan (data ++ more)) := by
  cases data with
  | nil => exact ⟨[chColon, chCR, chLF], by decide, .inr rfl⟩
  | cons first rest =>
    by_cases hcolon : first = chColon
    · subst hcolon
      exact scanPairs_completion h
    · simp [asciiScan, hcolon] at h

/-! ### `PASC` -/

theorem pairsFrom_append {data : List Byte} {k count : Nat} (h : 1 + 2 * (k + count) ≤ data.length)
    (more : List Byte) : pairsFrom (data ++ more) k count = pairsFrom data k count := by
  induction count generalizing k with
  | zero => rfl
  | succ n ih =>
    rw [pairsFrom, pairsFrom, byteAt_append_left (by omega), byteAt_append_left (by omega), ih (by omega)]

/-- Where the scan accepts a frame, `PASC` ends Ok or in `ChecksumMismatch`. -/
theorem exec_pasc_of_scan_ok {s : State} {data : List Byte} {m : Nat} (hr : Ready s data)
    (hs : asciiScan data = .ok m) : ∃ t, exec .pasc s = .next t ∧ (t.status = 0x00 ∨ t.status = 0x03) := by
  by_cases hl : (pairsFrom data 0 m)[m - 1]? = some (lrc ((pairsFrom data 0 m).take (m - 1)))
  · exact ⟨_, exec_pasc_of_lrc hr hs hl, .inl rfl⟩
  · exact ⟨_, exec_pasc_of_lrc_ne hr hs hl, .inr rfl⟩

theorem asciiScan_short_of_exec_pasc {s t : State} {data : List Byte} (hr : Ready s data) (h : exec .pasc s = .next t)
    (ht : t.status = 0x01) : asciiScan data = .error .bufferTooShort := by
  cases hs : asciiScan data with
  | error k =>
    cases (exec_pasc_of_scan_error hr hs).symm.trans h
    rcases asciiScan_error hs with rfl | rfl | rfl
    · rfl
    all_goals cases ht
  | ok m =>
    obtain ⟨t', h', hstatus⟩ := exec_pasc_of_scan_ok hr hs
    cases h'.symm.trans h
    simp [ht] at hstatus

/-- The first part of R175 for `PASC`: the scan and the decoded pairs stay as they are. -/
theorem exec_pasc_append {s t u : State} {data more : List Byte} (hr : Ready s data) (h : exec .pasc s = .next t)
    (ht : t.status ≠ 0x01) (hu : Ready u (data ++ more)) :
    ∃ w : Memory, exec .pasc u =
      .next (endState t.status t.result t.addr t.pduOff t.pduLen t.frameLen t.outLen { u with inW := w }) := by
  have hscan : asciiScan (data ++ more) = asciiScan data := asciiScan_append_of_ne_short (fun hs => by
    cases (exec_pasc_of_scan_error hr hs).symm.trans h
    exact ht rfl) more
  cases hs : asciiScan data with
  | error k =>
    cases (exec_pasc_of_scan_error hr hs).symm.trans h
    exact ⟨u.inW, exec_pasc_of_scan_error hu (hscan.trans hs)⟩
  | ok m =>
    have hlen := (asciiFrameAt_of_asciiScan hs).le_length
    have hpairs : pairsFrom (data ++ more) 0 m = pairsFrom data 0 m := pairsFrom_append (by omega) more
    have hs' := hscan.trans hs
    refine ⟨u.inW.writeBytes 1 (pairsFrom data 0 m), ?_⟩
    by_cases hl : (pairsFrom data 0 m)[m - 1]? = some (lrc ((pairsFrom data 0 m).take (m - 1)))
    · cases (exec_pasc_of_lrc hr hs hl).symm.trans h
      rw [exec_pasc_of_lrc hu hs' (by rwa [hpairs]), hpairs]
      rfl
    · cases (exec_pasc_of_lrc_ne hr hs hl).symm.trans h
      rw [exec_pasc_of_lrc_ne hu hs' (by rwa [hpairs]), hpairs]
      rfl

theorem ReachesTerminator.exec_pasc {u : State} {data : List Byte} (h : ReachesTerminator (asciiScan data))
    (hu : Ready u data) : ∃ v, exec .pasc u = .next v ∧ v.status ∈ [0x00, 0x02, 0x03] := by
  rcases h with ⟨m, hs⟩ | hs
  · obtain ⟨v, hv, hstatus⟩ := exec_pasc_of_scan_ok hu hs
    exact ⟨v, hv, by rcases hstatus with hok | hmismatch <;> simp [*]⟩
  · exact ⟨_, exec_pasc_of_scan_error hu hs, List.mem_cons_of_mem _ (List.mem_cons_self ..)⟩

/-- Settles O54: the scan stops at its answer, so only `BufferTooShort` can change; there the bytes can be completed to
CR, LF. -/
theorem asciiVerdictStandsWhenBytesAreAppended : Obligations.AsciiVerdictStandsWhenBytesAreAppended := by
  refine ⟨fun _ _ _ _ _ => exec_pasc_append, fun s t data hr h ht => ?_⟩
  obtain ⟨more, hlen, hreach⟩ := asciiScan_completion (asciiScan_short_of_exec_pasc hr h ht)
  exact ⟨more, hlen, hreach, fun _ => hreach.exec_pasc⟩

end Sys2Proof.Machine

/-! SUPPORT. How a command begins and ends (R160, R171 to R173, R176): one rule per case of the prologue, when a command
faults, and what it leaves unchanged. -/

namespace Sys2Proof.Machine

/-! ### The cases of the prologue -/

theorem exec_of_fault {s : State} (hf : s.fault = true) (i : Instr) : exec i s = .fault .inFaultState := by
  rw [exec_eq, prologue_of_fault hf]

theorem exec_of_not_inRange {s : State} (hf : s.fault = false) (hr : ¬ InRange s) (i : Instr) :
    exec i s = .next (errorState 0xF1 s) := by
  rw [exec_eq, prologue_of_not_inRange hf hr, raiseError_eq_errorState, statusCode]

theorem exec_of_not_allLive {s : State} (hf : s.fault = false) (hr : InRange s) (hl : ¬ AllLive s) (i : Instr) :
    exec i s = .fault .valuelessCell := by
  rw [exec_eq, prologue_of_not_allLive hf hr hl]

theorem exists_ready {s : State} (hf : s.fault = false) (hr : InRange s) (hl : AllLive s) : ∃ data, Ready s data := by
  obtain ⟨data, hd⟩ := allLive_iff.1 hl
  exact ⟨data, hf, hr, hd⟩

theorem runCommand_illegal {c : Word} (h : ∀ i, decode c ≠ .ok i) (s : State) : runCommand c s = illegalCommand s := by
  cases hc : decode c with
  | ok i => exact absurd hc (h i)
  | error e => exact runCommand_error hc s

theorem illegalCommand_of_fault {s : State} (hf : s.fault = true) : illegalCommand s = .fault .inFaultState := if_pos hf

theorem illegalCommand_of_not_fault {s : State} (hf : s.fault = false) :
    illegalCommand s = .next (errorState 0xF0 s) := by
  rw [illegalCommand, if_neg (by simp [hf]), raiseError_eq_errorState, statusCode]

theorem runCommand_of_fault {s : State} (hf : s.fault = true) (c : Word) : runCommand c s = .fault .inFaultState := by
  cases hc : decode c with
  | ok i => rw [runCommand_ok hc, exec_of_fault hf]
  | error e => rw [runCommand_error hc, illegalCommand_of_fault hf]

theorem decode_ne_ok_of_not_mem {c : Word} (h : ∀ i, (c, i) ∉ commandTable) (i : Instr) : decode c ≠ .ok i :=
  fun hc => h i (decode_eq_ok_iff_mem_commandTable.1 hc)

theorem runCommand_of_mem {c : Word} {i : Instr} (h : (c, i) ∈ commandTable) (s : State) :
    runCommand c s = exec i s :=
  runCommand_ok (decode_eq_ok_iff_mem_commandTable.2 h) s

/-- Settles O15: each clause is one case of the decoder or of the prologue. -/
theorem prologueInItsOrder : Obligations.PrologueInItsOrder := by
  refine fun s c => ⟨fun hf => runCommand_of_fault hf c, fun hf hc => ?_, fun i hf hi hr => ?_, fun i hf hi hr hl => ?_⟩
  · rw [runCommand_illegal (decode_ne_ok_of_not_mem hc), illegalCommand_of_not_fault hf]
  · rw [runCommand_of_mem hi, exec_of_not_inRange hf hr]
  · rw [runCommand_of_mem hi, exec_of_not_allLive hf hr hl]

/-! ### Checked commands, and unchecked commands beside their twins -/

/-- A checked command whose prologue passes ends with a `STATUS`. -/
theorem exec_checked_of_ready {i : Instr} {s : State} {data : List Byte} (hi : isChecked i = true) (hr : Ready s data) :
    ∃ t, exec i s = .next t := by
  rw [exec_of_ready hr, commandEnd, if_pos hi]
  rcases commandBody_cases i hr with ⟨w, r, hb⟩ | ⟨w, k, hb⟩
  · exact ⟨_, by rw [hb, endChecked_done]⟩
  · exact ⟨_, by rw [hb, endChecked_raise]⟩

theorem exists_checkedTwin {i : Instr} (h : isChecked i = false) : ∃ j, checkedTwin i = some j := by
  rwa [isChecked, Option.isNone_eq_false_iff, Option.isSome_iff_exists] at h

/-- Settles O55: the two forms share their pseudocode and differ in their end only. -/
theorem uncheckedCommandsFollowTheirTwins : Obligations.UncheckedCommandsFollowTheirTwins := fun i _ _ hij hf =>
  ⟨fun _ => exec_of_twin_ok hij, fun _ => exec_of_twin_error hij, fun hr => exec_of_not_inRange hf hr i⟩

/-- R176 for one command: a cell without a value, or the precondition of an unchecked command that does not hold. -/
theorem exec_fault_iff {i : Instr} {s : State} (hf : s.fault = false) :
    (∃ f, exec i s = .fault f) ↔
      InRange s ∧ (¬ AllLive s ∨ ∃ j t, checkedTwin i = some j ∧ exec j s = .next t ∧ t.status ≠ 0x00) := by
  constructor
  · rintro ⟨f, h⟩
    by_cases hr : InRange s
    · refine ⟨hr, or_iff_not_imp_left.2 fun hl => ?_⟩
      obtain ⟨data, hready⟩ := exists_ready hf hr (not_not.1 hl)
      cases hi : isChecked i with
      | true =>
        obtain ⟨t, ht⟩ := exec_checked_of_ready hi hready
        cases ht.symm.trans h
      | false =>
        obtain ⟨j, hij⟩ := exists_checkedTwin hi
        obtain ⟨t, ht⟩ := exec_checked_of_ready (checkedTwin_isChecked hij).2 hready
        exact ⟨j, t, hij, ht, fun hok => by cases (exec_of_twin_ok hij ht hok).symm.trans h⟩
    · cases (exec_of_not_inRange hf hr i).symm.trans h
  · rintro ⟨hr, hl | ⟨j, t, hij, ht, herr⟩⟩
    · exact ⟨_, exec_of_not_allLive hf hr hl i⟩
    · exact ⟨_, exec_of_twin_error hij hr ht herr⟩

/-! ### What every command leaves unchanged -/

theorem exec_status_mem {i : Instr} {s t : State} (h : exec i s = .next t) : t.status ∈ statusCodes := by
  rcases exec_next h with ⟨-, -, rfl⟩ | ⟨data, -, ⟨w, r, -, rfl⟩ | ⟨-, w, k, -, rfl⟩⟩
  · exact statusCode_mem .windowOutOfRange
  · exact List.mem_cons_self
  · exact statusCode_mem k

theorem resultsZero_raiseError (k : ErrorKind) (s : State) : ResultsZero (raiseError k s) :=
  ⟨rfl, rfl, rfl, rfl, rfl, rfl⟩

/-- After an error the results are 0 and the windows are as they were, but for the characters `PASC` has decoded before
`ChecksumMismatch` (R172). -/
theorem exec_error {i : Instr} {s t : State} (h : exec i s = .next t) (ht : t.status ≠ statusOk) :
    ResultsZero t ∧ t.outW = s.outW ∧ (t.inW = s.inW ∨ (i = .pasc ∧ t.status = 0x03)) := by
  rcases exec_next h with ⟨-, -, rfl⟩ | ⟨data, hr, ⟨w, r, -, rfl⟩ | ⟨hi, w, k, hb, rfl⟩⟩
  · exact ⟨resultsZero_raiseError _ _, rfl, .inl rfl⟩
  · exact absurd rfl ht
  · refine ⟨resultsZero_raiseError _ _, ?_⟩
    rcases commandBody_raise hr hb with rfl | ⟨rfl | rfl, rfl, m, -, rfl⟩
    · exact ⟨rfl, .inl rfl⟩
    · exact ⟨rfl, .inr ⟨rfl, rfl⟩⟩
    · cases hi

/-- Settles O16: the frame of every command, and what an error leaves. -/
theorem commandsWriteOnlyStatusResultsAndWindows : Obligations.CommandsWriteOnlyStatusResultsAndWindows := by
  intro i s t h
  refine ⟨?_, exec_status_mem h, exec_error h⟩
  obtain ⟨hcfg, hcmd, hinLen, houtCap, hunit, hfault, hhost⟩ := exec_next_frame h
  rw [← hcfg, ← hcmd, ← hinLen, ← houtCap, ← hunit, ← hfault, ← hhost]

/-- The results a success names are among those R19 to R23 give the command. -/
theorem Success.unproduced {i : Instr} {s w : State} {data : List Byte} {r : Results} (h : Success s data i w r) :
    (i ∉ [.crc16, .lrc, .vcrc16, .vlrc] → r.result = 0) ∧
      (i ∉ [.prtuReq, .prtuRsp, .pasc, .prtuReqU, .prtuRspU, .pascU] →
        r.addr = 0 ∧ r.pduOff = 0 ∧ r.pduLen = 0 ∧ r.frameLen = 0) ∧
      (i ∉ [.ertu, .easc, .ertuU, .eascU] → r.outLen = 0) := by
  cases h with
  | checksum hi v => exact ⟨fun hn => absurd hi hn, fun _ => ⟨rfl, rfl, rfl, rfl⟩, fun _ => rfl⟩
  | rtu dir hi =>
    refine ⟨fun _ => rfl, fun hn => absurd ?_ hn, fun _ => rfl⟩
    rcases hi with rfl | rfl <;> cases dir <;> decide
  | ascii hi =>
    refine ⟨fun _ => rfl, fun hn => absurd ?_ hn, fun _ => rfl⟩
    rcases hi with rfl | rfl <;> decide
  | encRtu hi | encAscii hi =>
    refine ⟨fun _ => rfl, fun _ => ⟨rfl, rfl, rfl, rfl⟩, fun hn => absurd ?_ hn⟩
    rcases hi with rfl | rfl <;> decide

/-- Settles O17: an error zeroes all six, and a success names only what the command produces. -/
theorem unproducedResultsAreZero : Obligations.UnproducedResultsAreZero := by
  intro i s t h
  rcases exec_next h with ⟨-, -, rfl⟩ | ⟨data, hr, ⟨w, r, hb, rfl⟩ | ⟨-, w, k, -, rfl⟩⟩
  · exact ⟨fun _ => rfl, fun _ => ⟨rfl, rfl, rfl, rfl⟩, fun _ => rfl⟩
  · exact (commandBody_done hr hb).unproduced
  · exact ⟨fun _ => rfl, fun _ => ⟨rfl, rfl, rfl, rfl⟩, fun _ => rfl⟩

end Sys2Proof.Machine

/-! SUPPORT. Steps that write `CMD` (R14), steps that fault (R176), steps that are refused (U7). -/

namespace Sys2Proof.Machine

/-! ### A `CMD` write -/

theorem step_of_decode {s : State} {c : Word} {i : Instr} (hf : s.fault = false)
    (h : nextLine s = some (.action (.setReg 0 c))) (hc : decode c = .ok i) :
    step s = exec i (storeReg .cmd c (advance s)) := by
  rw [step_cmd hf h, ← storeReg_cmd, runCommand_ok hc]

theorem step_of_illegal {s : State} {c : Word} (hf : s.fault = false)
    (h : nextLine s = some (.action (.setReg 0 c))) (hc : ∀ i, decode c ≠ .ok i) :
    step s = .next (errorState 0xF0 (storeReg .cmd c (advance s))) := by
  rw [step_cmd hf h, ← storeReg_cmd, runCommand_illegal hc, illegalCommand_of_not_fault (by rwa [storeReg_fault])]

/-- Settles O4: the word is stored, the position moves on, and the decoded command runs. -/
theorem stepRunsDecodedCommand : Obligations.StepRunsDecodedCommand := fun _ _ _ => step_of_decode

/-- Settles O5: a word that decodes to no command raises `IllegalCommand` whatever the operands are. -/
theorem illegalWordIsReported : Obligations.IllegalWordIsReported := fun _ _ hf h hc =>
  step_of_illegal hf h (decode_ne_ok_of_not_mem hc)

/-- Settles O6: the placed script is one `CMD` write of the word, which decodes to the command. -/
theorem placedWordRunsNext : Obligations.PlacedWordRunsNext := by
  intro s i hf
  have hword : BitVec.ofNat 16 (encode i).toNat = encode i := BitVec.ofNat_toNat ..
  have hline : nextLine (s.withFetchWord 16 (encode i).toNat) = some (.action (.setReg 0 (encode i))) := by
    rw [State.withFetchWord, hword]
    rfl
  rw [step_of_decode (s := s.withFetchWord 16 (encode i).toNat) hf hline (decode_eq_ok.2 rfl), State.withFetchWord,
    hword]
  rfl

/-- Settles O22: the range check, an illegal word and each end of a checked command give a `STATUS`. -/
theorem checkedCommandsNeverFault : Obligations.CheckedCommandsNeverFault := by
  intro s c hf h hlive hchecked
  by_cases hc : ∃ i, decode c = .ok i
  · obtain ⟨i, hi⟩ := hc
    rw [step_of_decode hf h hi]
    suffices hends : ∃ t, exec i (storeReg .cmd c (advance s)) = .next t by
      obtain ⟨t, ht⟩ := hends
      exact ⟨t, ht, exec_status_mem ht⟩
    by_cases hr : InRange s
    · obtain ⟨data, hready⟩ := exists_ready (s := storeReg .cmd c (advance s)) hf hr hlive
      exact exec_checked_of_ready (hchecked i hi) hready
    · exact ⟨_, exec_of_not_inRange (s := storeReg .cmd c (advance s)) hf hr i⟩
  · exact ⟨_, step_of_illegal hf h fun i hi => hc ⟨i, hi⟩, statusCode_mem .illegalCommand⟩

/-! ### Steps that fault -/

theorem runCommand_fault {c : Word} {s : State} {f : Fault} (hf : s.fault = false) (h : runCommand c s = .fault f) :
    ∃ i, decode c = .ok i ∧ exec i s = .fault f := by
  cases hc : decode c with
  | ok i => exact ⟨i, rfl, runCommand_ok hc s ▸ h⟩
  | error e =>
    rw [runCommand_error hc, illegalCommand_of_not_fault hf] at h
    cases h

/-- Of the host's actions only a `CMD` write can fault. -/
theorem hostAction_fault {a : HostAction} {s : State} {f : Fault} (h : hostAction a s = .fault f) :
    ∃ c, a = .setReg 0 c ∧ runCommand c (storeReg .cmd c s) = .fault f := by
  cases a with
  | setReg no c =>
    rw [hostAction] at h
    split at h
    · cases h
    · next hreg =>
      obtain rfl := regOfNumber_eq_some hreg
      exact ⟨c, rfl, h⟩
    · cases h
  | getReg no | setIn k v | setOut k v =>
    rw [hostAction] at h
    split at h <;> cases h
  | getIn k | getOut k =>
    rw [hostAction] at h
    split at h
    · split at h <;> cases h
    · cases h

/-- Outside the fault state only a host action can fault. -/
theorem step_fault {s : State} {f : Fault} (hf : s.fault = false) (h : step s = .fault f) :
    ∃ a, nextLine s = some (.action a) ∧ hostAction a (advance s) = .fault f := by
  cases hl : nextLine s with
  | none => cases (step_end hf hl).symm.trans h
  | some l =>
    rw [step_line hf hl] at h
    cases l with
    | action a => exact ⟨a, rfl, h⟩
    | ifEq x v t =>
      rw [hostLine] at h
      split at h <;> cases h
    | reset | goto | expect | halt => cases h

/-- A step faults exactly when it starts a legal command that faults. -/
theorem step_fault_iff {s : State} (hf : s.fault = false) :
    (∃ f, step s = .fault f) ↔
      ∃ c i, nextLine s = some (.action (.setReg 0 c)) ∧ decode c = .ok i ∧
        ∃ f, exec i (storeReg .cmd c (advance s)) = .fault f := by
  constructor
  · rintro ⟨f, h⟩
    obtain ⟨a, hl, ha⟩ := step_fault hf h
    obtain ⟨c, rfl, hc⟩ := hostAction_fault ha
    obtain ⟨i, hi, hexec⟩ := runCommand_fault (s := storeReg .cmd c (advance s)) hf hc
    exact ⟨c, i, hl, hi, f, hexec⟩
  · rintro ⟨c, i, hl, hi, f, hexec⟩
    exact ⟨f, (step_of_decode hf hl hi).trans hexec⟩

/-- Settles O21: only a `CMD` write of a legal word can fault, and `exec_fault_iff` says when that command does. -/
theorem faultsInExactlyTwoSituations : Obligations.FaultsInExactlyTwoSituations := by
  intro s hf
  rw [step_fault_iff hf]
  refine exists_congr fun c => exists_congr fun i => and_congr_right fun _ => ?_
  rw [decode_eq_ok_iff_mem_commandTable, exec_fault_iff (s := storeReg .cmd c (advance s)) hf]
  rfl

/-! ### Steps that are refused -/

theorem runCommand_ne_refused (c : Word) (s : State) (r : Refusal) : runCommand c s ≠ .refused r := by
  intro h
  cases hc : decode c with
  | ok i => exact exec_ne_refused i s r (runCommand_ok hc s ▸ h)
  | error e =>
    rw [runCommand_error hc, illegalCommand] at h
    split at h <;> cases h

/-- What a refused host action asked for: a register or a cell that does not exist, or the value of a cell
without one. -/
inductive RefusedAction (s : State) : HostAction → Refusal → Prop
  | getReg {no : Nat} (h : 12 ≤ no) : RefusedAction s (.getReg no) (.noSuchRegister no)
  | setReg {no : Nat} (h : 12 ≤ no) (v : Word) : RefusedAction s (.setReg no v) (.noSuchRegister no)
  | getIn {a : Nat} (h : s.cfg.inSize ≤ a) : RefusedAction s (.getIn a) (.noSuchInCell a)
  | setIn {a : Nat} (h : s.cfg.inSize ≤ a) (v : Byte) : RefusedAction s (.setIn a v) (.noSuchInCell a)
  | getOut {a : Nat} (h : s.cfg.outSize ≤ a) : RefusedAction s (.getOut a) (.noSuchOutCell a)
  | setOut {a : Nat} (h : s.cfg.outSize ≤ a) (v : Byte) : RefusedAction s (.setOut a v) (.noSuchOutCell a)
  | inValue {a : Nat} (h : s.inW.read a = none) : RefusedAction s (.getIn a) (.cellWithoutValue a)
  | outValue {a : Nat} (h : s.outW.read a = none) : RefusedAction s (.getOut a) (.cellWithoutValue a)

theorem hostAction_refused {a : HostAction} {s : State} {r : Refusal} (h : hostAction a s = .refused r) :
    RefusedAction s a r := by
  cases a with
  | setReg no v =>
    rw [hostAction] at h
    split at h
    · next hreg => cases h; exact .setReg (regOfNumber_eq_none.1 hreg) v
    · exact absurd h (runCommand_ne_refused _ _ _)
    · cases h
  | getReg no =>
    rw [hostAction] at h
    split at h
    · next hreg => cases h; exact .getReg (regOfNumber_eq_none.1 hreg)
    · cases h
  | setIn a v =>
    rw [hostAction] at h
    split at h
    · cases h
    · next ha => cases h; exact .setIn (Nat.not_lt.1 ha) v
  | getIn a =>
    rw [hostAction] at h
    split at h
    · split at h
      · next hv => cases h; exact .inValue hv
      · cases h
    · next ha => cases h; exact .getIn (Nat.not_lt.1 ha)
  | setOut a v =>
    rw [hostAction] at h
    split at h
    · cases h
    · next ha => cases h; exact .setOut (Nat.not_lt.1 ha) v
  | getOut a =>
    rw [hostAction] at h
    split at h
    · split at h
      · next hv => cases h; exact .outValue hv
      · cases h
    · next ha => cases h; exact .getOut (Nat.not_lt.1 ha)

/-- A refused step is a refused host action, or the host's `if` on a source it has never read. -/
theorem step_refused {s : State} {r : Refusal} (h : step s = .refused r) :
    (∃ a, nextLine s = some (.action a) ∧ RefusedAction (advance s) a r) ∨
      ∃ x v t, nextLine s = some (.ifEq x v t) ∧ lastRead x s.host.replies = none ∧ r = .neverRead x := by
  by_cases hr : nextLine s = some .reset
  · cases (step_reset hr).symm.trans h
  cases hf : s.fault with
  | true => cases (step_inFaultState hf hr).symm.trans h
  | false =>
    cases hl : nextLine s with
    | none => cases (step_end hf hl).symm.trans h
    | some l =>
      rw [step_line hf hl] at h
      cases l with
      | action a => exact .inl ⟨a, rfl, hostAction_refused h⟩
      | ifEq x v t =>
        rw [hostLine] at h
        split at h
        · next hread => cases h; exact .inr ⟨x, v, t, rfl, hread, rfl⟩
        · cases h
      | reset | goto | expect | halt => cases h

/-- Settles O23: each refused access is one of the five kinds. -/
theorem onlyHostAccessesAreRefused : Obligations.OnlyHostAccessesAreRefused := by
  intro s r h
  obtain ⟨a, hl, ha⟩ | ⟨x, v, t, hl, hread, rfl⟩ := step_refused h
  · cases ha with
    | getReg hno => exact .inl ⟨_, hno, rfl, .inl hl⟩
    | setReg hno v => exact .inl ⟨_, hno, rfl, .inr ⟨v, hl⟩⟩
    | getIn ha => exact .inr (.inl ⟨_, ha, rfl, .inl hl⟩)
    | setIn ha v => exact .inr (.inl ⟨_, ha, rfl, .inr ⟨v, hl⟩⟩)
    | getOut ha => exact .inr (.inr (.inl ⟨_, ha, rfl, .inl hl⟩))
    | setOut ha v => exact .inr (.inr (.inl ⟨_, ha, rfl, .inr ⟨v, hl⟩⟩))
    | inValue hv => exact .inr (.inr (.inr (.inl ⟨_, rfl, .inl ⟨hl, hv⟩⟩)))
    | outValue hv => exact .inr (.inr (.inr (.inl ⟨_, rfl, .inr ⟨hl, hv⟩⟩)))
  · exact .inr (.inr (.inr (.inr ⟨x, v, t, rfl, hl, hread⟩)))

end Sys2Proof.Machine

/-! SUPPORT. The invariant of the block (R6, R20, R21, R40, R55, R172): reset establishes it and every step keeps it. -/

namespace Sys2Proof.Machine

/-! ### Updates that keep the invariant -/

theorem blockInv_resetWith {cfg : Config} (h : cfg.wf = true) : BlockInv (State.resetWith cfg) where
  cfg := h
  inWf := List.Pairwise.nil
  inWithin := fun _ hc => absurd hc List.not_mem_nil
  outWf := List.Pairwise.nil
  outWithin := fun _ hc => absurd hc List.not_mem_nil
  status := List.mem_cons_self
  errorZero := fun h => absurd rfl h
  addrByte := by simp
  pduOff := by simp
  pduInFrame := by simp
  noFault := rfl

/-- Settles O24: all registers are 0 and both windows list no cell. -/
theorem resetMeetsTheInvariant : Obligations.ResetMeetsTheInvariant :=
  ⟨fun _ => blockInv_resetWith, blockInv_resetWith (by decide)⟩

section Updates

variable {s : State} (h : BlockInv s)

include h

/-- The invariant does not speak of the operand registers nor of the host. -/
theorem BlockInv.withOperands (cmd inLen outCap : Word) (unit : Byte) (host : HostState) :
    BlockInv { s with cmd := cmd, inLen := inLen, outCap := outCap, unit := unit, host := host } :=
  { h with }

theorem BlockInv.jumpTo (p : Nat) : BlockInv (jumpTo p s) := h.withOperands ..

theorem BlockInv.advance : BlockInv (advance s) := h.withOperands ..

theorem BlockInv.reply (x : Source) (v : Word) : BlockInv (reply x v s) := h.withOperands ..

theorem BlockInv.storeReg (r : Reg) (v : Word) : BlockInv (storeReg r v s) := by
  cases r <;> exact h.withOperands ..

theorem BlockInv.blockReset : BlockInv (blockReset s) :=
  (blockInv_resetWith h.cfg).withOperands ..

theorem BlockInv.writeIn {a : Nat} {bs : List Byte} (hbs : a + bs.length ≤ s.cfg.inSize) :
    BlockInv { s with inW := s.inW.writeBytes a bs } :=
  { h with inWf := Memory.wf_writeBytes h.inWf a bs, inWithin := Memory.within_writeBytes h.inWithin bs hbs }

theorem BlockInv.writeOut {a : Nat} {bs : List Byte} (hbs : a + bs.length ≤ s.cfg.outSize) :
    BlockInv { s with outW := s.outW.writeBytes a bs } :=
  { h with outWf := Memory.wf_writeBytes h.outWf a bs, outWithin := Memory.within_writeBytes h.outWithin bs hbs }

theorem BlockInv.raiseError (k : ErrorKind) : BlockInv (raiseError k s) :=
  { h with
    status := statusCode_mem k
    errorZero := fun _ => resultsZero_raiseError k s
    addrByte := by simp
    pduOff := by simp
    pduInFrame := by simp }

theorem BlockInv.commandDone {r : Results} (haddr : r.addr.toNat < 256) (hoff : r.pduOff.toNat ≤ 2)
    (hpdu : r.pduOff.toNat + r.pduLen.toNat ≤ r.frameLen.toNat) : BlockInv (commandDone r s) :=
  { h with
    status := List.mem_cons_self
    errorZero := fun hne => absurd rfl hne
    addrByte := haddr
    pduOff := hoff
    pduInFrame := hpdu }

end Updates

/-! ### Commands -/

/-- The cells `PASC` decodes into are live cells. -/
theorem pairsFrom_fits {s : State} {data : List Byte} {m : Nat} (hr : Ready s data) (hs : asciiScan data = .ok m) :
    1 + (pairsFrom data 0 m).length ≤ s.cfg.inSize := by
  have hlen := hr.length
  obtain ⟨-, ⟨hin, -⟩, -⟩ := hr
  have hframe := (asciiFrameAt_of_asciiScan hs).le_length
  rw [length_pairsFrom]
  omega

theorem zext16_toNat_lt (b : Byte) : (zext16 b).toNat < 256 := by
  rw [toNat_zext16]
  exact b.isLt

/-- The windows a success leaves, and the results it names, meet the invariant. -/
theorem Success.blockInv {i : Instr} {s w : State} {data : List Byte} {r : Results} (h : BlockInv s)
    (hr : Ready s data) (hs : Success s data i w r) : BlockInv (commandDone r w) := by
  have hlt := hr.length_lt
  have ⟨_, ⟨_, hcap⟩, _⟩ := hr
  cases hs with
  | checksum hi v => exact h.commandDone (by simp) (by simp) (by simp)
  | rtu dir hi len hf ht =>
    obtain ⟨-, -, hthere⟩ := hf
    refine h.commandDone (zext16_toNat_lt _) (by simp) ?_
    rw [lengthWord_toNat (by omega), lengthWord_toNat (by omega)]
    exact Nat.le.intro (show 1 + len + 2 = len + 3 by omega)
  | ascii hi m hs hl =>
    have hframe := (asciiFrameAt_of_asciiScan hs).le_length
    refine (h.writeIn (pairsFrom_fits hr hs)).commandDone (zext16_toNat_lt _) (by simp) ?_
    rw [lengthWord_toNat (by omega), lengthWord_toNat (by omega)]
    show 2 + (m - 2) ≤ 2 * m + 3
    omega
  | encRtu hi hc =>
    refine (h.writeOut ?_).commandDone (by simp) (by simp) (by simp)
    rw [length_rtuFrame, Nat.zero_add]
    exact hc.trans hcap
  | encAscii hi hc =>
    refine (h.writeOut ?_).commandDone (by simp) (by simp) (by simp)
    rw [length_asciiFrame, Nat.zero_add]
    exact hc.trans hcap

theorem BlockInv.exec {i : Instr} {s t : State} (h : BlockInv s) (ht : exec i s = .next t) : BlockInv t := by
  rcases exec_next ht with ⟨-, -, rfl⟩ | ⟨data, hr, ⟨w, r, hb, rfl⟩ | ⟨-, w, k, hb, rfl⟩⟩
  · exact h.raiseError _
  · exact (commandBody_done hr hb).blockInv h hr
  · rcases commandBody_raise hr hb with rfl | ⟨-, -, m, hs, rfl⟩
    · exact h.raiseError k
    · exact (h.writeIn (pairsFrom_fits hr hs)).raiseError k

/-- The command of a `CMD` write, legal or not, keeps the invariant and the parameters. -/
theorem BlockInv.runCommand {c : Word} {s t : State} (h : BlockInv s) (ht : runCommand c s = .next t) :
    BlockInv t ∧ t.cfg = s.cfg := by
  by_cases hc : ∃ i, decode c = .ok i
  · obtain ⟨i, hi⟩ := hc
    rw [runCommand_ok hi] at ht
    exact ⟨h.exec ht, (exec_next_frame ht).1⟩
  · rw [runCommand_illegal fun i hi => hc ⟨i, hi⟩, illegalCommand_of_not_fault h.noFault] at ht
    cases ht
    exact ⟨h.raiseError .illegalCommand, rfl⟩

/-! ### Steps -/

theorem BlockInv.hostAction {a : HostAction} {s t : State} (h : BlockInv s) (ht : hostAction a s = .next t) :
    BlockInv t ∧ t.cfg = s.cfg := by
  rcases hostAction_next ht with ⟨v, rfl, hrun⟩ | ⟨no, r, v, rfl, -, -, rfl⟩ | ⟨x, v, rfl⟩ | ⟨k, v, rfl, hk, rfl⟩ |
    ⟨k, v, rfl, hk, rfl⟩
  · exact (h.storeReg .cmd v).runCommand hrun
  · exact ⟨h.storeReg r v, storeReg_cfg ..⟩
  · exact ⟨h.reply x v, rfl⟩
  · exact ⟨h.writeIn (a := k) (bs := [v]) hk, rfl⟩
  · exact ⟨h.writeOut (a := k) (bs := [v]) hk, rfl⟩

/-- Settles O25: a step is a reset, a host action, or a move of the host's position. -/
theorem stepKeepsTheInvariant : Obligations.StepKeepsTheInvariant := by
  intro s t h ht
  rcases step_next ht with ⟨-, rfl⟩ | ⟨-, a, -, ha⟩ | ⟨-, p, rfl⟩
  · exact ⟨h.advance.blockReset, rfl⟩
  · exact h.advance.hostAction ha
  · exact ⟨h.jumpTo p, rfl⟩

end Sys2Proof.Machine

/-! SUPPORT. The checksum functions and the verify commands (R101 to R104, R107, R108). -/

namespace Sys2Proof.Machine

/-! ### The loop of R101 on natural numbers -/

/-- One shift step of R101 on natural numbers. -/
def crcShiftNat (c : Nat) : Nat := if c % 2 = 1 then (c / 2) ^^^ 0xA001 else c / 2

theorem toNat_crcShift (c : Word) : (crcShift c).toNat = crcShiftNat c.toNat := by
  have hbit : c.getLsbD 0 = decide (c.toNat % 2 = 1) := by
    rw [BitVec.getLsbD, Nat.testBit_zero]
  rw [crcShift, crcShiftNat, hbit]
  by_cases h : c.toNat % 2 = 1 <;> simp [h, Nat.shiftRight_eq_div_pow]

theorem toNat_crcShift8 (c : Word) : (crcShift8 c).toNat = crcShiftNat^[8] c.toNat := by
  simp only [crcShift8, toNat_crcShift, Function.iterate_succ_apply, Function.iterate_zero_apply]

/-- Settles O26: one byte more is one `crcByte`, whose eight shifts are the loop's on natural numbers. -/
theorem crc16FollowsTheBitLoop : Obligations.Crc16FollowsTheBitLoop := by
  refine ⟨rfl, fun s b => ?_⟩
  rw [crc16_concat, crcByte, toNat_crcShift8, BitVec.toNat_xor, toNat_zext16]
  rfl

/-- Settles O28: five values of the loop. -/
theorem crc16KnownValues : Obligations.Crc16KnownValues :=
  ⟨crc16_nil, by decide, by decide, by decide, by decide +kernel⟩

/-! ### The residue law -/

theorem crc16_append_pair (d : List Byte) (a b : Byte) :
    crc16 (d ++ [a, b]) = crcByte (crcByte (crc16 d) a) b := by
  rw [crc16_append]
  rfl

theorem crcByte_eq_zero_iff {c : Word} {b : Byte} : crcByte c b = 0 ↔ c = zext16 b := by
  rw [crcByte, ← crcShift8_zero, crcShift8_injective.eq_iff]
  exact BitVec.xor_eq_zero_iff

/-- The value after `a` is the byte `b` alone exactly when `a` and `b` are the two bytes of the value before. -/
theorem crcByte_eq_zext16_iff {c : Word} {a b : Byte} :
    crcByte c a = zext16 b ↔ a = lowByte c ∧ b = highByte c := by
  constructor
  · intro h
    rw [← crcShift8_high b, crcByte, crcShift8_injective.eq_iff] at h
    have hc : c = (zext16 b <<< 8) ^^^ zext16 a := by rw [← h, BitVec.xor_assoc, BitVec.xor_self, BitVec.xor_zero]
    subst hc
    constructor <;> apply BitVec.eq_of_getLsbD_eq <;> intro i hi
    · simp [lowByte, zext16, hi]
    · simp [highByte, zext16, hi, show 8 + i < 16 by omega, show i < 16 by omega]
  · rintro ⟨rfl, rfl⟩
    exact crcByte_lowByte c

theorem crc16_append_pair_eq_zero_iff {d : List Byte} {a b : Byte} :
    crc16 (d ++ [a, b]) = 0 ↔ a = lowByte (crc16 d) ∧ b = highByte (crc16 d) := by
  rw [crc16_append_pair, crcByte_eq_zero_iff, crcByte_eq_zext16_iff]

theorem exists_append_pair {data : List Byte} (h : 2 ≤ data.length) : ∃ d a b, data = d ++ [a, b] := by
  have hlen : (data.drop (data.length - 2)).length = 2 := by rw [List.length_drop]; omega
  obtain ⟨a, b, hab⟩ := List.length_eq_two.1 hlen
  exact ⟨data.take (data.length - 2), a, b, by rw [← hab, List.take_append_drop]⟩

/-! ### `VCRC16` -/

theorem answersOnly_vcrc16 : AnswersOnly .vcrc16 fun data => verdict (verifyCrc16 data) := fun _ _ => rfl

theorem verifyCrc16_of_length_lt {data : List Byte} (h : data.length < 2) : verifyCrc16 data = false := if_pos h

theorem verifyCrc16_append_pair {d : List Byte} {a b : Byte} :
    verifyCrc16 (d ++ [a, b]) = true ↔ a = lowByte (crc16 d) ∧ b = highByte (crc16 d) := by
  have ha : byteAt (d ++ [a, b]) d.length = a := byteAt_of_getElem? (by simp)
  have hb : byteAt (d ++ [a, b]) (d.length + 1) = b := byteAt_of_getElem? (by simp)
  simp [verifyCrc16, ha, hb]

theorem verifyCrc16_iff_crc16_eq_zero {data : List Byte} (h : 2 ≤ data.length) :
    verifyCrc16 data = true ↔ crc16 data = 0 := by
  obtain ⟨d, a, b, rfl⟩ := exists_append_pair h
  rw [verifyCrc16_append_pair, crc16_append_pair_eq_zero_iff]

theorem verifyCrc16_iff {data : List Byte} :
    verifyCrc16 data = true ↔ ∃ d, data = d ++ [(crc16 d).extractLsb' 0 8, (crc16 d).extractLsb' 8 8] := by
  simp only [← lowByte_eq_extract, ← highByte_eq_extract]
  constructor
  · intro h
    rcases Nat.lt_or_ge data.length 2 with hl | hl
    · cases (verifyCrc16_of_length_lt hl).symm.trans h
    · obtain ⟨d, a, b, rfl⟩ := exists_append_pair hl
      obtain ⟨rfl, rfl⟩ := verifyCrc16_append_pair.1 h
      exact ⟨d, rfl⟩
  · rintro ⟨d, rfl⟩
    exact verifyCrc16_append_pair.2 ⟨rfl, rfl⟩

theorem verdict_eq_one_iff {ok : Bool} : verdict ok = 1 ↔ ok = true := by cases ok <;> decide

/-- A command that answers a verdict answers 1 where it is true, 0 where it is not (R19). -/
theorem AnswersOnly.exec_verdict {i : Instr} {f : List Byte → Bool} (hi : AnswersOnly i fun data => verdict (f data))
    {s : State} {data : List Byte} (hr : Ready s data) {p : Prop} (hp : f data = true ↔ p) :
    (p → exec i s = .next (endState 0x00 1 0 0 0 0 0 s)) ∧ (¬ p → exec i s = .next (endState 0x00 0 0 0 0 0 0 s)) := by
  rw [hi.exec_of_ready hr, ← hp]
  exact ⟨fun h => by rw [h]; rfl, fun h => by rw [Bool.eq_false_iff.2 h]; rfl⟩

/-- Settles O27: two bytes are eaten to 0 exactly when they are the value's own, low byte first. -/
theorem crc16ResidueLaws : Obligations.Crc16ResidueLaws := by
  refine ⟨fun s => ?_, fun s data hr hlen => ⟨_, answersOnly_vcrc16.exec_of_ready hr, ?_⟩⟩
  · rw [← lowByte_eq_extract, ← highByte_eq_extract, crc16_append_pair_eq_zero_iff]
    exact ⟨rfl, rfl⟩
  · exact verdict_eq_one_iff.trans (verifyCrc16_iff_crc16_eq_zero hlen)

/-- Settles O33: the verdict is true exactly on bytes followed by their CRC16. -/
theorem vcrc16CommandResult : Obligations.Vcrc16CommandResult :=
  ⟨fun _ _ hr => answersOnly_vcrc16.exec_verdict hr verifyCrc16_iff, fun _ _ => answersOnly_vcrc16.status⟩

/-! ### `lrc` and `VLRC` -/

/-- Settles O29: negation in 8 bits is subtraction from 256. -/
theorem lrcIsTheNegatedSum : Obligations.LrcIsTheNegatedSum := fun s => by
  rw [lrc, BitVec.toNat_neg, toNat_foldl_add]

theorem answersOnly_vlrc : AnswersOnly .vlrc fun data => verdict (verifyLrc data) := fun _ _ => rfl

theorem verifyLrc_nil : verifyLrc [] = false := rfl

theorem verifyLrc_concat {d : List Byte} {b : Byte} : verifyLrc (d ++ [b]) = true ↔ b = lrc d := by
  have hb : byteAt (d ++ [b]) d.length = b := byteAt_of_getElem? (by simp)
  simp [verifyLrc, hb]

theorem verifyLrc_iff {data : List Byte} : verifyLrc data = true ↔ ∃ d, data = d ++ [lrc d] := by
  rcases List.eq_nil_or_concat' data with rfl | ⟨d, b, rfl⟩
  · simp [verifyLrc_nil]
  · rw [verifyLrc_concat]
    constructor
    · rintro rfl
      exact ⟨d, rfl⟩
    · rintro ⟨d', h⟩
      obtain ⟨rfl, hb⟩ := List.append_inj' h rfl
      simpa using hb

theorem eq_lrc_iff {d : List Byte} {b : Byte} : b = lrc d ↔ ((d ++ [b]).map BitVec.toNat).sum % 256 = 0 := by
  have hb := b.isLt
  rw [← BitVec.toNat_inj, lrcIsTheNegatedSum, List.map_append, List.sum_append, List.map_singleton, List.sum_singleton]
  omega

theorem verifyLrc_iff_sum {data : List Byte} (h : 1 ≤ data.length) :
    verifyLrc data = true ↔ (data.map BitVec.toNat).sum % 256 = 0 := by
  rcases List.eq_nil_or_concat' data with rfl | ⟨d, b, rfl⟩
  · cases h
  · rw [verifyLrc_concat, eq_lrc_iff]

theorem lrc_perm {s s' : List Byte} (h : s.Perm s') : lrc s = lrc s' := by
  rw [← BitVec.toNat_inj, lrcIsTheNegatedSum, lrcIsTheNegatedSum, (h.map _).sum_eq]

/-- Settles O30: each law is one of the byte sum modulo 256. -/
theorem lrcLaws : Obligations.LrcLaws := by
  refine ⟨rfl, fun s => ?_, fun s data hr hlen => ⟨_, answersOnly_vlrc.exec_of_ready hr, ?_⟩, fun _ _ => lrc_perm,
    by decide, by decide, by decide⟩
  · rw [lrcIsTheNegatedSum]
    omega
  · exact verdict_eq_one_iff.trans (verifyLrc_iff_sum hlen)

/-- Settles O34: the verdict is true exactly on bytes followed by their LRC. -/
theorem vlrcCommandResult : Obligations.VlrcCommandResult :=
  ⟨fun _ _ hr => answersOnly_vlrc.exec_verdict hr verifyLrc_iff, fun _ _ => answersOnly_vlrc.status⟩

end Sys2Proof.Machine

/-! SUPPORT. RTU frames (R121 to R126, R195): the length table, what a frame is as a list of bytes, and the two round
trips. -/

namespace Sys2Proof.Machine

/-! ### The length table of R122 -/

section Table

variable {fc : Byte}

theorem shapeOf_exception (h : 0x80 ≤ fc.toNat) : shapeOf fc = .exception := if_pos h

theorem shapeOf_read (h : fc.toNat ∈ [0x01, 0x02, 0x03, 0x04]) : shapeOf fc = .read := by
  simp only [List.mem_cons, List.not_mem_nil, or_false] at h
  rw [shapeOf, if_neg (by omega), if_pos h]

theorem shapeOf_writeSingle (h : fc.toNat ∈ [0x05, 0x06]) : shapeOf fc = .writeSingle := by
  simp only [List.mem_cons, List.not_mem_nil, or_false] at h
  rw [shapeOf, if_neg (by omega), if_neg (by omega), if_pos h]

theorem shapeOf_writeMultiple (h : fc.toNat ∈ [0x0F, 0x10]) : shapeOf fc = .writeMultiple := by
  simp only [List.mem_cons, List.not_mem_nil, or_false] at h
  rw [shapeOf, if_neg (by omega), if_neg (by omega), if_neg (by omega), if_pos h]

theorem shapeOf_unknown (hlt : fc.toNat < 0x80) (h : fc.toNat ∉ [0x01, 0x02, 0x03, 0x04, 0x05, 0x06, 0x0F, 0x10]) :
    shapeOf fc = .unknown := by
  simp only [List.mem_cons, List.not_mem_nil, or_false] at h
  rw [shapeOf, if_neg (by omega), if_neg (by omega), if_neg (by omega), if_neg (by omega)]

end Table

/-- For a function code outside the table the frame is the whole live window (R122, D17). -/
theorem rtuPduLen_unknown {data : List Byte} (h : shapeOf (byteAt data 1) = .unknown) (dir : Dir) :
    rtuPduLen dir data = if data.length < 4 then none else some (data.length - 3) := by
  simp only [rtuPduLen, h]

/-- Settles O35: the function code selects a shape, and the shape its row of the table. -/
theorem rtuPduLengthTable : Obligations.RtuPduLengthTable := by
  rintro data - fc rfl
  rw [← byteAt_eq_getD]
  refine ⟨fun h dir => ?_, fun h => ?_, fun h dir => ?_, fun h => ?_, fun hlt h dir => ?_⟩
  · simp only [rtuPduLen, shapeOf_exception h]
  · simp only [rtuPduLen, shapeOf_read h]
    exact ⟨trivial, fun hl => if_pos hl, fun hl => if_neg hl.not_gt⟩
  · simp only [rtuPduLen, shapeOf_writeSingle h]
  · simp only [rtuPduLen, shapeOf_writeMultiple h]
    exact ⟨trivial, fun hl => if_pos hl, fun hl => if_neg hl.not_gt⟩
  · rw [rtuPduLen_unknown (shapeOf_unknown hlt h)]
    exact ⟨fun hl => if_pos hl, fun hl => if_neg hl.not_gt⟩

/-! ### A frame as a list of bytes -/

theorem take_add_two {data : List Byte} {n : Nat} (h : n + 2 ≤ data.length) :
    data.take (n + 2) = data.take n ++ [byteAt data n, byteAt data (n + 1)] := by
  have hn : n < data.length := by omega
  have hn' : n + 1 < data.length := by omega
  rw [← List.take_append_getElem hn', ← List.take_append_getElem hn, List.append_assoc, byteAt_eq_getD, byteAt_eq_getD,
    List.getD_eq_getElem _ _ hn, List.getD_eq_getElem _ _ hn', List.singleton_append]

/-- The trailer is right exactly when the CRC16 of the whole frame is 0 (R102). -/
theorem trailerRight_iff_crc16_eq_zero {data : List Byte} {len : Nat} (h : len + 3 ≤ data.length) :
    TrailerRight data len ↔ crc16 (data.take (len + 3)) = 0 := by
  rw [take_add_two (by omega), crc16_append_pair_eq_zero_iff, TrailerRight]

/-- A right trailer is a function of the bytes before it. -/
theorem TrailerRight.take_eq {data : List Byte} {len : Nat} (ht : TrailerRight data len)
    (h : len + 3 ≤ data.length) :
    data.take (len + 3) = data.take (len + 1) ++
      [lowByte (crc16 (data.take (len + 1))), highByte (crc16 (data.take (len + 1)))] := by
  obtain ⟨hlow, hhigh⟩ := ht
  rw [take_add_two (by omega), hlow, hhigh]

theorem take_succ_eq_cons {data : List Byte} (h : 1 ≤ data.length) (len : Nat) :
    data.take (len + 1) = byteAt data 0 :: (data.drop 1).take len := by
  cases data with
  | nil => cases h
  | cons b rest => rfl

/-- A frame with a right trailer is what `ERTU` makes of its address and PDU. -/
theorem TrailerRight.take_eq_rtuFrame {data : List Byte} {len : Nat} (ht : TrailerRight data len)
    (h : len + 3 ≤ data.length) : data.take (len + 3) = rtuFrame (byteAt data 0) ((data.drop 1).take len) := by
  rw [ht.take_eq h, take_succ_eq_cons (by omega), rtuFrame]

theorem trailerRight_rtuFrame (a : Byte) (pdu : List Byte) : TrailerRight (rtuFrame a pdu) pdu.length := by
  rw [trailerRight_iff_crc16_eq_zero (length_rtuFrame a pdu).ge, ← length_rtuFrame a pdu, List.take_length, rtuFrame]
  exact crc16_append_pair_eq_zero_iff.2 ⟨rfl, rfl⟩

/-- An RTU parse that ends Ok has found a frame with a right trailer, and gives its address and lengths. -/
theorem frameThere_of_exec_rtuCommand {dir : Dir} {s t : State} {data : List Byte} (hr : Ready s data)
    (h : exec (rtuCommand dir) s = .next t) (ht : t.status = statusOk) :
    ∃ len, FrameThere dir data len ∧ TrailerRight data len ∧ t.addr = zext16 (byteAt data 0) ∧
      t.pduLen.toNat = len ∧ t.frameLen.toNat = len + 3 := by
  have hlt := hr.length_lt
  by_cases hframe : ∃ len, FrameThere dir data len
  · obtain ⟨len, hf⟩ := hframe
    have ⟨_, _, hthere⟩ := hf
    by_cases hright : TrailerRight data len
    · cases (exec_rtuCommand_there hr hf hright).symm.trans h
      exact ⟨len, hf, hright, rfl, lengthWord_toNat (by omega), lengthWord_toNat (by omega)⟩
    · cases (exec_rtuCommand_corrupt hr hf hright).symm.trans h
      cases ht
  · cases (exec_rtuCommand_short hr hframe).symm.trans h
    cases ht

/-! ### Encode, then parse -/

/-- `ERTU` that ends Ok has written the RTU frame. -/
theorem bytes_of_exec_ertu {s t : State} {pdu : List Byte} (hr : Ready s pdu) (h : exec .ertu s = .next t)
    (ht : t.status = statusOk) : t.outW.bytes 0 (pdu.length + 3) = some (rtuFrame s.unit pdu) := by
  rcases Nat.lt_or_ge s.outCap.toNat (pdu.length + 3) with hc | hc
  · cases (exec_ertu_short hr hc).symm.trans h
    cases ht
  · cases (exec_ertu_fits hr hc).symm.trans h
    rw [← length_rtuFrame s.unit pdu]
    exact Memory.bytes_writeBytes ..

theorem byteAt_one_rtuFrame {a fc : Byte} {pdu : List Byte} (h : pdu[0]? = some fc) :
    byteAt (rtuFrame a pdu) 1 = fc := by
  obtain ⟨hpos, -⟩ := List.getElem?_eq_some_iff.1 h
  exact byteAt_of_getElem? ((rtuFrame_getElem?_pdu a hpos).trans h)

/-- Settles O38: the bytes written are `rtuFrame`, whose trailer is right; for an unknown code the length is all of
them. -/
theorem rtuEncodeThenParse : Obligations.RtuEncodeThenParse := by
  intro dir s t u pdu frame hr h ht hframe hu
  obtain rfl := Option.some.inj ((bytes_of_exec_ertu hr h ht).symm.trans hframe)
  have hlength := length_rtuFrame s.unit pdu
  refine ⟨fun hlen => ⟨?_, fun k hk => ?_⟩, fun fc hfc hlt hmem => ?_⟩
  · have hpos := rtuPduLen_pos hlen
    exact exec_rtuCommand_there hu ⟨by omega, hlen, hlength.ge⟩ (trailerRight_rtuFrame s.unit pdu)
  · rw [hu.read (by omega), rtuFrame_getElem?_pdu _ hk]
  · obtain ⟨hpos, -⟩ := List.getElem?_eq_some_iff.1 hfc
    rw [rtuPduLen_unknown ((byteAt_one_rtuFrame hfc).symm ▸ shapeOf_unknown hlt hmem), if_neg (by omega), hlength,
      Nat.add_sub_cancel]

/-! ### Parse, then encode -/

/-- Settles O39: the frame is `rtuFrame` of its own address and PDU, which is what `ERTU` writes. -/
theorem rtuParseThenEncode : Obligations.RtuParseThenEncode := by
  intro dir s t u data hr h ht hu hunit hcap
  obtain ⟨len, ⟨-, -, hthere⟩, hright, haddr, hpduLen, hframeLen⟩ := frameThere_of_exec_rtuCommand hr h ht
  have hframe := hright.take_eq_rtuFrame hthere
  have hunit' : u.unit = byteAt data 0 := zext16_inj.1 (hunit.trans haddr)
  rw [hpduLen] at hu
  have hpdu : ((data.drop 1).take len).length = len := by
    rw [List.length_take, List.length_drop]
    omega
  refine ⟨_, exec_ertu_fits hu (by rwa [hpdu, ← hframeLen]), rfl, ?_, ?_⟩
  · rw [hpdu, ← hframeLen]
    exact BitVec.ofNat_toNat ..
  · rw [hframeLen, hframe, ← hunit']
    have := Memory.bytes_writeBytes u.outW 0 (rtuFrame u.unit ((data.drop 1).take len))
    rwa [length_rtuFrame, hpdu] at this

/-! ### Frames that are changed, cut off or followed by zeros -/

/-- Settles O40: the length is still found, and only one trailer is right for the bytes before it. -/
theorem rtuCorruptTrailerIsRejected : Obligations.RtuCorruptTrailerIsRejected := by
  intro dir s t u data data' hr h ht hu hlength hbody htrailer
  obtain ⟨len, ⟨h2, hlen, hthere⟩, hright, -, hpduLen, -⟩ := frameThere_of_exec_rtuCommand hr h ht
  rw [hpduLen] at hbody htrailer
  have hthere' : len + 3 ≤ data'.length := hlength ▸ hthere
  have hf' : FrameThere dir data' len :=
    ⟨hlength ▸ h2, rtuPduLen_congr hlen (by omega) hbody (.inr hlength), hthere'⟩
  refine exec_rtuCommand_corrupt hu hf' fun hright' => htrailer ?_
  rw [hright'.take_eq hthere', hright.take_eq hthere, hbody]

/-- Settles O41: a frame found in the first bytes would be found in all of them too, at the same length. -/
theorem rtuStrictPrefixNeedsMoreBytes : Obligations.RtuStrictPrefixNeedsMoreBytes := by
  intro dir s t u data k hr h ht hcode hk hu
  obtain ⟨len, hf, -, -, -, hframeLen⟩ := frameThere_of_exec_rtuCommand hr h ht
  refine exec_rtuCommand_short hu fun ⟨len', hf'⟩ => ?_
  have ⟨h2, _, hthere⟩ := hf'
  rw [List.length_take] at h2 hthere
  have hknown : KnownCode (byteAt (data.take k) 1) := by
    rw [byteAt_take (by omega)]
    exact knownCode_of_table hcode
  have hall := hf'.append hknown (data.drop k)
  rw [List.take_append_drop] at hall
  have := hall.unique hf
  omega

theorem crc16_append_zeros {data : List Byte} (h : crc16 data = 0) (k : Nat) :
    crc16 (data ++ List.replicate k 0) = 0 := by
  induction k with
  | zero => rwa [List.replicate_zero, List.append_nil]
  | succ k ih =>
    rw [List.replicate_succ', ← List.append_assoc, crc16_concat, ih]
    exact crcByte_eq_zero_iff.2 rfl

/-- A frame of an unknown function code is all live bytes, four or more. -/
theorem frameThere_unknown {dir : Dir} {data : List Byte} {len : Nat} (h : shapeOf (byteAt data 1) = .unknown) :
    FrameThere dir data len ↔ 4 ≤ data.length ∧ data.length = len + 3 := by
  rw [FrameThere, rtuPduLen_unknown h]
  split <;> simp only [reduceCtorEq, Option.some.injEq, false_and, and_false, false_iff] <;> omega

/-- Settles O43: the zeros are live bytes, so they belong to the frame, and they keep its CRC16 at 0. -/
theorem rtuUnknownFunctionTakesTrailingZeros : Obligations.RtuUnknownFunctionTakesTrailingZeros := by
  intro dir s t u data k hr h ht hlt hmem hu
  have hshape : shapeOf (byteAt data 1) = .unknown := shapeOf_unknown hlt hmem
  obtain ⟨len, hf, hright, haddr, hpduLen, hframeLen⟩ := frameThere_of_exec_rtuCommand hr h ht
  obtain ⟨hfour, hlength⟩ := (frameThere_unknown hshape).1 hf
  have hlength' : (data ++ List.replicate k 0).length = len + k + 3 := by
    rw [List.length_append, List.length_replicate]
    omega
  refine ⟨BitVec.eq_of_toNat_eq (by rw [hframeLen, ← hr.length, hlength]), ?_⟩
  have hf' : FrameThere dir (data ++ List.replicate k 0) (len + k) :=
    (frameThere_unknown (by rwa [byteAt_append_left (by omega)])).2 ⟨by omega, hlength'⟩
  have hright' : TrailerRight (data ++ List.replicate k 0) (len + k) := by
    rw [trailerRight_iff_crc16_eq_zero hlength'.ge, ← hlength', List.take_length]
    rw [trailerRight_iff_crc16_eq_zero hlength.ge, ← hlength, List.take_length] at hright
    exact crc16_append_zeros hright k
  rw [exec_rtuCommand_there hu hf' hright', ← byteAt_eq_getD, byteAt_append_left (by omega), hpduLen, hframeLen, haddr,
    Nat.add_right_comm len 3 k]
  rfl

end Sys2Proof.Machine

/-! SUPPORT. The ASCII scan: where it stops and what it answers there (R142, R174), read off the bytes by index. -/

namespace Sys2Proof.Machine

/-! ### Hex digits -/

theorem isHex_iff_exists_hexChar {b : Byte} : isHex b = true ↔ ∃ n < 16, hexChar n = b :=
  ⟨fun h => ⟨hexVal b, hexVal_lt h, hexChar_hexVal h⟩, fun ⟨_, hn, hb⟩ => hb ▸ isHex_hexChar hn⟩

/-- Settles O44: the sixteen codes are the digits of the values 0 to 15. -/
theorem hexDigitsAreUppercase : Obligations.HexDigitsAreUppercase := by
  refine ⟨fun b => ?_, fun n hn => ⟨isHex_hexChar hn, hexVal_hexChar hn⟩, fun b hb => ⟨hexVal_lt hb, hexChar_hexVal hb⟩⟩
  have hcodes : [0x30, 0x31, 0x32, 0x33, 0x34, 0x35, 0x36, 0x37, 0x38, 0x39, 0x41, 0x42, 0x43, 0x44, 0x45, 0x46] =
      (List.range 16).map hexChar := by decide
  rw [isHex_iff_exists_hexChar, hcodes, List.mem_map]
  simp only [List.mem_range]

theorem ne_cr_of_isHex {b : Byte} (h : isHex b = true) : b ≠ chCR := by
  rintro rfl
  cases isHex_cr.symm.trans h

theorem ne_lf_of_isHex {b : Byte} (h : isHex b = true) : b ≠ chLF := by
  rintro rfl
  cases (show isHex chLF = false by decide).symm.trans h

/-! ### Where the scan stops -/

/-- After `:` and `n` pairs of hex digits the scan stops, and how: the bytes end (before a pair, within one, or at the
CR), a byte offends, or CR, LF stand there. -/
inductive ScanStop (data : List Byte) (n : Nat) : Except ErrorKind Nat → Prop
  | endBeforePair (hl : data.length = 2 * n + 1) : ScanStop data n (.error .bufferTooShort)
  | endInPair {b : Byte} (hb : data[2 * n + 1]? = some b) (hex : isHex b = true) (hl : data.length = 2 * n + 2) :
      ScanStop data n (.error .bufferTooShort)
  | endAtCr (hcr : data[2 * n + 1]? = some chCR) (hl : data.length = 2 * n + 2) :
      ScanStop data n (.error .bufferTooShort)
  | noDigit {b : Byte} (hb : data[2 * n + 1]? = some b) (hcr : b ≠ chCR) (hex : isHex b = false) :
      ScanStop data n (.error .invalidHexDigit)
  | noLowDigit {h l : Byte} (hh : data[2 * n + 1]? = some h) (hex : isHex h = true) (hl : data[2 * n + 2]? = some l)
      (hex' : isHex l = false) : ScanStop data n (.error .invalidHexDigit)
  | noLf {b : Byte} (hcr : data[2 * n + 1]? = some chCR) (hb : data[2 * n + 2]? = some b) (hlf : b ≠ chLF) :
      ScanStop data n (.error .invalidHexDigit)
  | tooFew (hn : n < 3) (hcr : data[2 * n + 1]? = some chCR) (hlf : data[2 * n + 2]? = some chLF) :
      ScanStop data n (.error .lengthMismatch)
  | frame (hn : 3 ≤ n) (hcr : data[2 * n + 1]? = some chCR) (hlf : data[2 * n + 2]? = some chLF) :
      ScanStop data n (.ok n)

theorem drop_eq_cons_of_getElem? {data : List Byte} {i : Nat} {b : Byte} (h : data[i]? = some b) :
    data.drop i = b :: data.drop (i + 1) := by
  obtain ⟨hi, rfl⟩ := List.getElem?_eq_some_iff.1 h
  exact List.drop_eq_getElem_cons hi

section Scan

variable {data : List Byte} {n : Nat} (h0 : data[0]? = some chColon) (hh : HexUpTo data n)

include h0 hh

theorem HexUpTo.lt_length : 2 * n < data.length := by
  rcases Nat.eq_zero_or_pos n with rfl | hn
  · exact (List.getElem?_eq_some_iff.1 h0).1
  · obtain ⟨b, hb, -⟩ := hh (2 * n) (by omega) le_rfl
    exact (List.getElem?_eq_some_iff.1 hb).1

theorem HexUpTo.asciiScan_eq : asciiScan data = scanPairs (data.drop (2 * n + 1)) n := by
  have hlt := hh.lt_length h0
  rw [asciiScan_skip (by omega) (byteAt_of_getElem? h0) (fun _ => hh.isHex_byteAt), Nat.add_comm]

/-- Where the scan stops says what it answers. -/
theorem ScanStop.asciiScan_eq {r : Except ErrorKind Nat} (hs : ScanStop data n r) : asciiScan data = r := by
  rw [hh.asciiScan_eq h0]
  have last {b : Byte} (hb : data[2 * n + 1]? = some b) (hl : data.length = 2 * n + 2) :
      data.drop (2 * n + 1) = [b] := by
    rw [drop_eq_cons_of_getElem? hb, List.drop_eq_nil_of_le hl.le]
  have two {h l : Byte} (hh : data[2 * n + 1]? = some h) (hl : data[2 * n + 2]? = some l) :
      data.drop (2 * n + 1) = h :: l :: data.drop (2 * n + 3) := by
    rw [drop_eq_cons_of_getElem? hh, drop_eq_cons_of_getElem? hl]
  cases hs with
  | endBeforePair hl => rw [List.drop_eq_nil_of_le hl.le, scanPairs]
  | endInPair hb hex hl => rw [last hb hl, scanPairs, if_pos hex, ite_self]
  | endAtCr hcr hl => rw [last hcr hl, scanPairs, if_pos rfl]
  | noDigit hb hcr hex =>
    rw [drop_eq_cons_of_getElem? hb]
    cases data.drop (2 * n + 1 + 1) <;> simp [scanPairs, hcr, hex]
  | noLowDigit hh hex hl hex' =>
    rw [two hh hl]
    simp [scanPairs, ne_cr_of_isHex hex, hex, hex']
  | noLf hcr hb hlf => rw [two hcr hb, scanPairs, if_pos rfl, if_pos hlf]
  | tooFew hn hcr hlf => rw [two hcr hlf, scanPairs_crlf, if_pos hn]
  | frame hn hcr hlf => rw [two hcr hlf, scanPairs_crlf, if_neg hn.not_gt]

/-- The pairs of hex digits that stand first are passed, and where the next pair is none the scan stops. -/
theorem HexUpTo.exists_scanStop (hnext : ¬ HexUpTo data (n + 1)) : ∃ r, ScanStop data n r := by
  have hlt := hh.lt_length h0
  cases hb : data[2 * n + 1]? with
  | none => exact ⟨_, .endBeforePair (by have := List.getElem?_eq_none_iff.1 hb; omega)⟩
  | some b =>
    by_cases hcr : b = chCR
    · subst hcr
      cases hl : data[2 * n + 2]? with
      | none =>
        have := (List.getElem?_eq_some_iff.1 hb).1
        exact ⟨_, .endAtCr hb (by have := List.getElem?_eq_none_iff.1 hl; omega)⟩
      | some l =>
        by_cases hlf : l = chLF
        · subst hlf
          rcases Nat.lt_or_ge n 3 with hn | hn
          · exact ⟨_, .tooFew hn hb hl⟩
          · exact ⟨_, .frame hn hb hl⟩
        · exact ⟨_, .noLf hb hl hlf⟩
    · cases hex : isHex b with
      | false => exact ⟨_, .noDigit hb hcr hex⟩
      | true =>
        cases hl : data[2 * n + 2]? with
        | none =>
          have := (List.getElem?_eq_some_iff.1 hb).1
          exact ⟨_, .endInPair hb hex (by have := List.getElem?_eq_none_iff.1 hl; omega)⟩
        | some l =>
          cases hex' : isHex l with
          | false => exact ⟨_, .noLowDigit hb hex hl hex'⟩
          | true =>
            refine absurd (fun j h1 h2 => ?_) hnext
            rcases Nat.lt_trichotomy j (2 * n + 1) with hj | rfl | hj
            · exact hh j h1 (by omega)
            · exact ⟨b, hb, hex⟩
            · obtain rfl : j = 2 * n + 2 := by omega
              exact ⟨l, hl, hex'⟩

end Scan

theorem exists_maximal_hexUpTo (data : List Byte) : ∃ n, HexUpTo data n ∧ ¬ HexUpTo data (n + 1) := by
  by_contra! hstep
  have hall (n : Nat) : HexUpTo data n := by
    induction n with
    | zero => exact fun j h1 h2 => by omega
    | succ n ih => exact hstep n ih
  obtain ⟨b, hb, -⟩ := hall (data.length + 1) (data.length + 1) (by omega) (by omega)
  have := (List.getElem?_eq_some_iff.1 hb).1
  omega

theorem exists_scanStop {data : List Byte} (h0 : data[0]? = some chColon) :
    ∃ n, HexUpTo data n ∧ ScanStop data n (asciiScan data) := by
  obtain ⟨n, hh, hnext⟩ := exists_maximal_hexUpTo data
  obtain ⟨r, hs⟩ := hh.exists_scanStop h0 hnext
  exact ⟨n, hh, hs.asciiScan_eq h0 hh ▸ hs⟩

theorem asciiScan_of_not_colon {data : List Byte} {b : Byte} (h0 : data[0]? = some b) (hb : b ≠ chColon) :
    asciiScan data = .error .invalidHexDigit := by
  cases data with
  | nil => cases h0
  | cons first rest =>
    cases h0
    exact if_pos hb

/-- Every scan: no byte, a first byte other than `:`, or a stop after some pairs. -/
theorem asciiScan_cases (data : List Byte) :
    data = [] ∨ (∃ b, data[0]? = some b ∧ b ≠ chColon) ∨
      (data[0]? = some chColon ∧ ∃ n, HexUpTo data n ∧ ScanStop data n (asciiScan data)) := by
  cases data with
  | nil => exact .inl rfl
  | cons first rest =>
    by_cases hb : first = chColon
    · subst hb
      exact .inr (.inr ⟨rfl, exists_scanStop rfl⟩)
    · exact .inr (.inl ⟨first, rfl, hb⟩)

/-! ### Which error the scan reports -/

theorem asciiScan_invalid_iff {data : List Byte} :
    asciiScan data = .error .invalidHexDigit ↔
      (∃ b, data[0]? = some b ∧ b ≠ chColon) ∨
      (data[0]? = some chColon ∧ ∃ n : Nat, HexUpTo data n ∧
        ((∃ b, data[2 * n + 1]? = some b ∧ b ≠ chCR ∧ isHex b = false) ∨
          (∃ h l, data[2 * n + 1]? = some h ∧ isHex h = true ∧ data[2 * n + 2]? = some l ∧ isHex l = false) ∨
          (∃ b, data[2 * n + 1]? = some chCR ∧ data[2 * n + 2]? = some b ∧ b ≠ chLF))) := by
  constructor
  · intro h
    rcases asciiScan_cases data with rfl | hfirst | ⟨h0, n, hh, hs⟩
    · cases h
    · exact .inl hfirst
    · rw [h] at hs
      refine .inr ⟨h0, n, hh, ?_⟩
      cases hs with
      | noDigit hb hcr hex => exact .inl ⟨_, hb, hcr, hex⟩
      | noLowDigit hb hex hl hex' => exact .inr (.inl ⟨_, _, hb, hex, hl, hex'⟩)
      | noLf hcr hb hlf => exact .inr (.inr ⟨_, hcr, hb, hlf⟩)
  · rintro (⟨b, hb, hne⟩ | ⟨h0, n, hh, ⟨b, hb, hcr, hex⟩ | ⟨h, l, hb, hex, hl, hex'⟩ | ⟨b, hcr, hb, hlf⟩⟩)
    · exact asciiScan_of_not_colon hb hne
    · exact (ScanStop.noDigit hb hcr hex).asciiScan_eq h0 hh
    · exact (ScanStop.noLowDigit hb hex hl hex').asciiScan_eq h0 hh
    · exact (ScanStop.noLf hcr hb hlf).asciiScan_eq h0 hh

theorem asciiScan_mismatch_iff {data : List Byte} :
    asciiScan data = .error .lengthMismatch ↔
      data[0]? = some chColon ∧ ∃ m < 3, HexUpTo data m ∧
        data[2 * m + 1]? = some chCR ∧ data[2 * m + 2]? = some chLF := by
  constructor
  · intro h
    rcases asciiScan_cases data with rfl | ⟨b, hb, hne⟩ | ⟨h0, n, hh, hs⟩
    · cases h
    · cases (asciiScan_of_not_colon hb hne).symm.trans h
    · rw [h] at hs
      cases hs with
      | tooFew hn hcr hlf => exact ⟨h0, n, hn, hh, hcr, hlf⟩
  · rintro ⟨h0, m, hm, hh, hcr, hlf⟩
    exact (ScanStop.tooFew hm hcr hlf).asciiScan_eq h0 hh

/-- The bytes end after whole pairs of digits, or after one digit more: all bytes behind the first are digits. -/
theorem HexUpTo.all_of_length_le {data : List Byte} {n : Nat} (hh : HexUpTo data n)
    (hl : data.length = 2 * n + 1 ∨ (data.length = 2 * n + 2 ∧ ∃ b, data[2 * n + 1]? = some b ∧ isHex b = true)) :
    ∀ j b, 1 ≤ j → data[j]? = some b → isHex b = true := by
  intro j b h1 hb
  have hj := (List.getElem?_eq_some_iff.1 hb).1
  by_cases h2 : j ≤ 2 * n
  · obtain ⟨c, hc, hex⟩ := hh j h1 h2
    cases hb.symm.trans hc
    exact hex
  · rcases hl with hl | ⟨hl, c, hc, hex⟩
    · omega
    · obtain rfl : j = 2 * n + 1 := by omega
      cases hb.symm.trans hc
      exact hex

/-- All bytes after `:` are digits: the bytes end before a pair or within one. -/
theorem asciiScan_of_all_hex {data : List Byte} (h0 : data[0]? = some chColon)
    (h : ∀ j b, 1 ≤ j → data[j]? = some b → isHex b = true) : asciiScan data = .error .bufferTooShort := by
  have hpos := (List.getElem?_eq_some_iff.1 h0).1
  have digit (j : Nat) (h1 : 1 ≤ j) (hj : j < data.length) : ∃ b, data[j]? = some b ∧ isHex b = true :=
    ⟨data[j], List.getElem?_eq_getElem hj, h j _ h1 (List.getElem?_eq_getElem hj)⟩
  obtain ⟨n, hn⟩ : ∃ n, data.length = 2 * n + 1 ∨ data.length = 2 * n + 2 := ⟨(data.length - 1) / 2, by omega⟩
  have hh : HexUpTo data n := fun j h1 h2 => digit j h1 (by omega)
  rcases hn with hl | hl
  · exact (ScanStop.endBeforePair hl).asciiScan_eq h0 hh
  · obtain ⟨b, hb, hex⟩ := digit (2 * n + 1) (by omega) (by omega)
    exact (ScanStop.endInPair hb hex hl).asciiScan_eq h0 hh

theorem asciiScan_short_iff {data : List Byte} :
    asciiScan data = .error .bufferTooShort ↔
      data = [] ∨
      (data[0]? = some chColon ∧
        ((∀ j b, 1 ≤ j → data[j]? = some b → isHex b = true) ∨
          ∃ n : Nat, HexUpTo data n ∧ data[2 * n + 1]? = some chCR ∧ data.length = 2 * n + 2)) := by
  constructor
  · intro h
    rcases asciiScan_cases data with rfl | ⟨b, hb, hne⟩ | ⟨h0, n, hh, hs⟩
    · exact .inl rfl
    · cases (asciiScan_of_not_colon hb hne).symm.trans h
    · rw [h] at hs
      refine .inr ⟨h0, ?_⟩
      cases hs with
      | endBeforePair hl => exact .inl (hh.all_of_length_le (.inl hl))
      | endInPair hb hex hl => exact .inl (hh.all_of_length_le (.inr ⟨hl, _, hb, hex⟩))
      | endAtCr hcr hl => exact .inr ⟨n, hh, hcr, hl⟩
  · rintro (rfl | ⟨h0, hall | ⟨n, hh, hcr, hl⟩⟩)
    · rfl
    · exact asciiScan_of_all_hex h0 hall
    · exact (ScanStop.endAtCr hcr hl).asciiScan_eq h0 hh

/-- Settles O46: each error is one kind of stop. -/
theorem asciiScanReportsTheFirstOffence : Obligations.AsciiScanReportsTheFirstOffence := fun _ =>
  ⟨asciiScan_invalid_iff, asciiScan_mismatch_iff, asciiScan_short_iff⟩

end Sys2Proof.Machine

/-! SUPPORT. ASCII frames (R65, R143, R146, R147): what `PASC` answers, what a frame is as a list of characters, the two
round trips, and a changed LRC. -/

namespace Sys2Proof.Machine

/-! ### The ends of `PASC` -/

/-- Settles O47: the scan's three errors, each with its code. -/
theorem pascScanErrorsLeaveTheWindow : Obligations.PascScanErrorsLeaveTheWindow := fun _ _ hr =>
  ⟨exec_pasc_of_scan_error hr, exec_pasc_of_scan_error hr, exec_pasc_of_scan_error hr, fun k hk => by
    rcases asciiScan_error hk with rfl | rfl | rfl <;> decide⟩

/-- Settles O48: the window is `IN` with the decoded bytes from cell 1 on, and the LRC tells the two ends apart. -/
theorem pascCommandResult : Obligations.PascCommandResult := by
  intro s data m hr hs
  have hlen := length_pairsFrom data 0 m
  refine ⟨s.inW.writeBytes 1 (pairsFrom data 0 m), pairsFrom data 0 m, hlen, fun k hk => ?_, fun k hk => ?_,
    fun a ha => ?_, exec_pasc_of_lrc hr hs, exec_pasc_of_lrc_ne hr hs⟩
  · rw [getElem?_pairsFrom _ _ _ _ hk, Nat.zero_add]
    rfl
  · exact Memory.read_writeBytes_one _ _ (hlen.symm ▸ hk)
  · exact Memory.read_writeBytes_one_outside _ _ (hlen.symm ▸ ha)

/-- The decoded bytes of `data` are address `a`, PDU `pdu` and their LRC, and the scan accepts the frame. -/
structure DecodesTo (data : List Byte) (a : Byte) (pdu : List Byte) : Prop where
  scan : asciiScan data = .ok (pdu.length + 2)
  pairs : pairsFrom data 0 (pdu.length + 2) = a :: pdu ++ [lrc (a :: pdu)]

theorem DecodesTo.frameAt {data : List Byte} {a : Byte} {pdu : List Byte} (h : DecodesTo data a pdu) :
    AsciiFrameAt data (pdu.length + 2) := asciiFrameAt_of_asciiScan h.scan

theorem take_body (a : Byte) (pdu : List Byte) (c : Byte) :
    (a :: pdu ++ [c]).take (pdu.length + 1) = a :: pdu :=
  List.take_left' rfl

theorem getElem?_body (a : Byte) (pdu : List Byte) (c : Byte) : (a :: pdu ++ [c])[pdu.length + 1]? = some c :=
  List.getElem?_concat_length

/-- `PASC` on a frame whose LRC matches. -/
theorem DecodesTo.exec_pasc {s : State} {data : List Byte} {a : Byte} {pdu : List Byte} (h : DecodesTo data a pdu)
    (hr : Ready s data) :
    exec .pasc s =
      .next (endState 0x00 0 (a.setWidth 16) 2 (BitVec.ofNat 16 pdu.length) (BitVec.ofNat 16 (2 * pdu.length + 7)) 0
        { s with inW := s.inW.writeBytes 1 (a :: pdu ++ [lrc (a :: pdu)]) }) := by
  have hlrc : (pairsFrom data 0 (pdu.length + 2))[pdu.length + 2 - 1]? =
      some (lrc ((pairsFrom data 0 (pdu.length + 2)).take (pdu.length + 2 - 1))) := by
    rw [h.pairs, Nat.add_sub_cancel (pdu.length + 1) 1, getElem?_body, take_body]
  rw [exec_pasc_of_lrc hr h.scan hlrc, h.pairs]
  rfl

/-- Three bytes or more whose last is the LRC of the others are address, PDU and LRC. -/
theorem exists_body {d : List Byte} {m : Nat} (hd : d.length = m) (hm : 2 ≤ m)
    (hl : d[m - 1]? = some (lrc (d.take (m - 1)))) :
    ∃ a pdu, d = a :: pdu ++ [lrc (a :: pdu)] ∧ m = pdu.length + 2 := by
  subst hd
  match d, hm with
  | a :: b :: rest, _ =>
    obtain ⟨pdu, c, hpdu⟩ := (List.eq_nil_or_concat' (b :: rest)).resolve_left (List.cons_ne_nil b rest)
    rw [hpdu] at hl ⊢
    have hlen : (a :: (pdu ++ [c])).length = pdu.length + 2 := by simp
    rw [hlen, Nat.add_sub_cancel (pdu.length + 1) 1, ← List.cons_append, getElem?_body, take_body] at hl
    exact ⟨a, pdu, by rw [← Option.some.inj hl, List.cons_append], hlen⟩

/-- `PASC` ends Ok only on a frame whose LRC matches. -/
theorem decodesTo_of_exec_pasc {s t : State} {data : List Byte} (hr : Ready s data) (h : exec .pasc s = .next t)
    (ht : t.status = statusOk) : ∃ a pdu, DecodesTo data a pdu := by
  cases hs : asciiScan data with
  | error k =>
    cases (exec_pasc_of_scan_error hr hs).symm.trans h
    exact absurd ht (statusCode_ne_ok k)
  | ok m =>
    have h3 := (asciiFrameAt_of_asciiScan hs).three_le
    by_cases hl : (pairsFrom data 0 m)[m - 1]? = some (lrc ((pairsFrom data 0 m).take (m - 1)))
    · obtain ⟨a, pdu, hbody, rfl⟩ := exists_body (length_pairsFrom data 0 m) (by omega) hl
      exact ⟨a, pdu, hs, hbody⟩
    · cases (exec_pasc_of_lrc_ne hr hs hl).symm.trans h
      cases ht

/-- Where `PASC` has decoded into: the PDU stands at `IN[2 .. 2+L)`. -/
theorem Memory.bytes_two_writeBytes_one (m : Memory) (a : Byte) (pdu : List Byte) (c : Byte) :
    (m.writeBytes 1 (a :: pdu ++ [c])).bytes 2 pdu.length = some pdu := by
  refine Memory.bytes_eq_some.2 ⟨rfl, fun i hi => ?_⟩
  rw [show 2 + i = 1 + (i + 1) by omega, Memory.read_writeBytes_one _ _ (by simp; omega), List.cons_append,
    List.getElem?_cons_succ, List.getElem?_append_left hi]

/-! ### Encode, then parse -/

theorem pairsFrom_asciiFrame (a : Byte) (pdu : List Byte) :
    pairsFrom (asciiFrame a pdu) 0 (pdu.length + 2) = a :: pdu ++ [lrc (a :: pdu)] := by
  have hlen : (a :: pdu ++ [lrc (a :: pdu)]).length = pdu.length + 2 := by simp
  refine (eq_pairsFrom hlen fun k hk => ?_).symm
  have hb := List.getElem?_eq_getElem (hlen.symm ▸ hk)
  obtain ⟨hhigh, hlow⟩ := asciiFrame_getElem?_hexChars a pdu hb
  rw [hb, ← byteAt_eq_getD, ← byteAt_eq_getD, byteAt_of_getElem? hhigh, byteAt_of_getElem? hlow, ← hexPair,
    hexPair_hexChar]

/-- The scan passes the pairs of address, PDU and LRC and comes to CR, LF. -/
theorem asciiScan_asciiFrame (a : Byte) (pdu : List Byte) :
    asciiScan (asciiFrame a pdu) = if pdu.length + 2 < 3 then .error .lengthMismatch else .ok (pdu.length + 2) := by
  have hlen : (a :: pdu ++ [lrc (a :: pdu)]).length = pdu.length + 2 := by simp
  rw [asciiFrame, asciiScan, if_neg (not_not.2 rfl), scanPairs_flatMap, scanPairs_crlf, hlen, Nat.zero_add]

theorem decodesTo_asciiFrame (a : Byte) {pdu : List Byte} (h : 1 ≤ pdu.length) :
    DecodesTo (asciiFrame a pdu) a pdu where
  scan := by rw [asciiScan_asciiFrame, if_neg (by omega)]
  pairs := pairsFrom_asciiFrame a pdu

/-- `EASC` that ends Ok has written the ASCII frame. -/
theorem bytes_of_exec_easc {s t : State} {pdu : List Byte} (hr : Ready s pdu) (h : exec .easc s = .next t)
    (ht : t.status = statusOk) : t.outW.bytes 0 (2 * pdu.length + 7) = some (asciiFrame s.unit pdu) := by
  rcases Nat.lt_or_ge s.outCap.toNat (2 * pdu.length + 7) with hc | hc
  · cases (exec_easc_short hr hc).symm.trans h
    cases ht
  · cases (exec_easc_fits hr hc).symm.trans h
    rw [← length_asciiFrame s.unit pdu]
    exact Memory.bytes_writeBytes ..

/-- Settles O50: the characters written are `asciiFrame`, which decodes to address, PDU and LRC. -/
theorem asciiEncodeThenParse : Obligations.AsciiEncodeThenParse := by
  intro s t u pdu frame hr h ht hframe hu
  obtain rfl := Option.some.inj ((bytes_of_exec_easc hr h ht).symm.trans hframe)
  refine ⟨fun hlen => ⟨_, (decodesTo_asciiFrame s.unit hlen).exec_pasc hu, ?_⟩, fun hlen => ?_⟩
  · exact Memory.bytes_two_writeBytes_one ..
  · exact exec_pasc_of_scan_error hu (by rw [asciiScan_asciiFrame, if_pos (by omega)])

/-! ### Parse, then encode -/

/-- The characters of the decoded bytes are the characters they were decoded from. -/
theorem flatMap_hexChars_pairsFrom {data : List Byte} {k count : Nat} (hl : 1 + 2 * (k + count) ≤ data.length)
    (hh : ∀ j, 1 + 2 * k ≤ j → j < 1 + 2 * (k + count) → isHex (byteAt data j) = true) :
    (pairsFrom data k count).flatMap hexChars = (data.drop (1 + 2 * k)).take (2 * count) := by
  induction count generalizing k with
  | zero => rfl
  | succ n ih =>
    have hhigh : data[1 + 2 * k]? = some (byteAt data (1 + 2 * k)) := getElem?_eq_byteAt (by omega)
    have hlow : data[1 + 2 * k + 1]? = some (byteAt data (2 + 2 * k)) := by
      rw [Nat.add_right_comm 1 (2 * k) 1]
      exact getElem?_eq_byteAt (by omega)
    rw [pairsFrom, List.flatMap_cons, hexChars_hexPair (hh _ (by omega) (by omega)) (hh _ (by omega) (by omega)),
      ih (by omega) (fun j h1 h2 => hh j (by omega) (by omega)), drop_eq_cons_of_getElem? hhigh,
      drop_eq_cons_of_getElem? hlow]
    rfl

/-- A frame with a matching LRC is what `EASC` makes of its address and PDU. -/
theorem DecodesTo.take_eq_asciiFrame {data : List Byte} {a : Byte} {pdu : List Byte} (h : DecodesTo data a pdu) :
    data.take (2 * pdu.length + 7) = asciiFrame a pdu := by
  have hf := h.frameAt
  have hlen := hf.le_length
  have hchars := flatMap_hexChars_pairsFrom (data := data) (k := 0) (count := pdu.length + 2) (by omega)
    (fun j h1 h2 => hf.hex.isHex_byteAt (by omega) (by omega))
  rw [show 2 * pdu.length + 7 = 2 * (pdu.length + 2) + 1 + 2 by omega, take_add_two (by omega),
    take_succ_eq_cons (by omega), byteAt_of_getElem? hf.colon, byteAt_of_getElem? hf.cr, byteAt_of_getElem? hf.lf,
    asciiFrame, ← h.pairs, hchars]
  rfl

/-- Settles O51: the frame is `asciiFrame` of its own address and PDU, which is what `EASC` writes. -/
theorem asciiParseThenEncode : Obligations.AsciiParseThenEncode := by
  intro s t u data pdu' hr h ht hpdu hu hunit hcap
  obtain ⟨a, pdu, hd⟩ := decodesTo_of_exec_pasc hr h ht
  have hlen := hd.frameAt.le_length
  have hlt := hr.length_lt
  cases (hd.exec_pasc hr).symm.trans h
  have hpduLen : (BitVec.ofNat 16 pdu.length).toNat = pdu.length := lengthWord_toNat (by omega)
  have hframeLen : (BitVec.ofNat 16 (2 * pdu.length + 7)).toNat = 2 * pdu.length + 7 := lengthWord_toNat (by omega)
  simp only [endState, hpduLen, hframeLen, Memory.bytes_two_writeBytes_one, Option.some.injEq] at hpdu hcap hunit ⊢
  subst hpdu
  obtain rfl : u.unit = a := zext16_inj.1 hunit
  refine ⟨_, exec_easc_fits hu hcap, rfl, rfl, ?_⟩
  rw [hd.take_eq_asciiFrame, ← length_asciiFrame u.unit pdu]
  exact Memory.bytes_writeBytes ..

/-! ### A changed LRC -/

theorem hexPair_inj {h l h' l' : Byte} (hh : isHex h = true) (hl : isHex l = true) (hh' : isHex h' = true)
    (hl' : isHex l' = true) (heq : hexPair h l = hexPair h' l') : h = h' ∧ l = l' := by
  have hchars := congrArg hexChars heq
  rw [hexChars_hexPair hh hl, hexChars_hexPair hh' hl'] at hchars
  simpa using hchars

theorem pairsFrom_congr {data data' : List Byte} {k count : Nat}
    (h : ∀ i < 1 + 2 * (k + count), byteAt data' i = byteAt data i) :
    pairsFrom data' k count = pairsFrom data k count := by
  induction count generalizing k with
  | zero => rfl
  | succ n ih =>
    rw [pairsFrom, pairsFrom, h _ (by omega), h _ (by omega), ih fun i hi => h i (by omega)]

theorem pairsFrom_succ_last (data : List Byte) (k n : Nat) :
    pairsFrom data k (n + 1) =
      pairsFrom data k n ++ [hexPair (byteAt data (1 + 2 * (k + n))) (byteAt data (2 + 2 * (k + n)))] := by
  induction n generalizing k with
  | zero => rfl
  | succ n ih => rw [pairsFrom, ih, pairsFrom, List.cons_append, Nat.add_right_comm k 1 n, Nat.add_assoc k n 1]

theorem byteAt_set_ne {data : List Byte} {i j : Nat} (h : j ≠ i) (b : Byte) :
    byteAt (data.set j b) i = byteAt data i := by
  rw [byteAt, byteAt, List.getD_eq_getElem?_getD, List.getD_eq_getElem?_getD, List.getElem?_set_ne h]

theorem byteAt_set_self {data : List Byte} {j : Nat} (h : j < data.length) (b : Byte) : byteAt (data.set j b) j = b :=
  byteAt_of_getElem? (List.getElem?_set_self h)

theorem HexUpTo.set {data : List Byte} {n j : Nat} (h : HexUpTo data n) (hj : 2 * n < j) (b : Byte) :
    HexUpTo (data.set j b) n := fun i h1 h2 => by
  rw [List.getElem?_set_ne (by omega)]
  exact h i h1 h2

/-- A hex digit for a hex digit leaves a frame. -/
theorem AsciiFrameAt.set {data : List Byte} {m j : Nat} {b : Byte} (h : AsciiFrameAt data m) (h1 : 1 ≤ j)
    (h2 : j ≤ 2 * m) (hb : isHex b = true) : AsciiFrameAt (data.set j b) m where
  three_le := h.three_le
  colon := by rw [List.getElem?_set_ne (by omega), h.colon]
  hex := fun i hi1 hi2 => by
    have hlen := h.le_length
    by_cases hij : j = i
    · subst hij
      exact ⟨b, List.getElem?_set_self (by omega), hb⟩
    · rw [List.getElem?_set_ne hij]
      exact h.hex i hi1 hi2
  cr := by rw [List.getElem?_set_ne (by omega), h.cr]
  lf := by rw [List.getElem?_set_ne (by omega), h.lf]

/-- A byte that is no digit, in the last pair of a frame, is the first offence. -/
theorem AsciiFrameAt.asciiScan_set_not_hex {data : List Byte} {n j : Nat} {b : Byte} (h : AsciiFrameAt data (n + 1))
    (hj : j = 2 * n + 1 ∨ j = 2 * n + 2) (hb : isHex b = false) :
    asciiScan (data.set j b) = .error .invalidHexDigit := by
  have hlen := h.le_length
  have h0 : (data.set j b)[0]? = some chColon := by rw [List.getElem?_set_ne (by omega), h.colon]
  have hh : HexUpTo (data.set j b) n := HexUpTo.set (fun i h1 h2 => h.hex i h1 (by omega)) (by omega) b
  have hself : (data.set j b)[j]? = some b := List.getElem?_set_self (by omega)
  rcases hj with rfl | rfl
  · by_cases hcr : b = chCR
    · obtain ⟨l, hl, hex⟩ := h.hex (2 * n + 2) (by omega) (by omega)
      rw [← List.getElem?_set_ne (show 2 * n + 1 ≠ 2 * n + 2 by omega) (a := b)] at hl
      exact (ScanStop.noLf (hcr ▸ hself) hl (ne_lf_of_isHex hex)).asciiScan_eq h0 hh
    · exact (ScanStop.noDigit hself hcr hb).asciiScan_eq h0 hh
  · obtain ⟨c, hc, hex⟩ := h.hex (2 * n + 1) (by omega) (by omega)
    rw [← List.getElem?_set_ne (show 2 * n + 2 ≠ 2 * n + 1 by omega) (a := b)] at hc
    exact (ScanStop.noLowDigit hc hex hself hb).asciiScan_eq h0 hh

/-- Another digit in the last pair decodes to another last byte, which is then not the LRC of the others. -/
theorem DecodesTo.exec_pasc_set_hex {u : State} {data : List Byte} {a b : Byte} {pdu : List Byte} {j : Nat}
    (h : DecodesTo data a pdu) (hj : j = 2 * pdu.length + 3 ∨ j = 2 * pdu.length + 4) (hne : b ≠ byteAt data j)
    (hb : isHex b = true) (hu : Ready u (data.set j b)) :
    ∃ w : Memory, exec .pasc u = .next (errorState 0x03 { u with inW := w }) := by
  have hf := h.frameAt
  have hlen := hf.le_length
  have hf' : AsciiFrameAt (data.set j b) (pdu.length + 2) := hf.set (by omega) (by omega) hb
  have hpairs := h.pairs
  rw [pairsFrom_succ_last] at hpairs
  obtain ⟨hbody, hlast⟩ := List.append_inj' hpairs rfl
  have hpairs' : pairsFrom (data.set j b) 0 (pdu.length + 2) =
      a :: pdu ++ [hexPair (byteAt (data.set j b) (1 + 2 * (0 + (pdu.length + 1))))
        (byteAt (data.set j b) (2 + 2 * (0 + (pdu.length + 1))))] := by
    rw [pairsFrom_succ_last, pairsFrom_congr fun i hi => byteAt_set_ne (by omega) b, hbody]
  refine ⟨_, exec_pasc_of_lrc_ne hu hf'.asciiScan_eq_ok ?_⟩
  rw [hpairs', Nat.add_sub_cancel (pdu.length + 1) 1, getElem?_body, take_body, ← List.singleton_inj.1 hlast]
  intro heq
  obtain ⟨hhigh, hlow⟩ := hexPair_inj (hf'.hex.isHex_byteAt (by omega) (by omega))
    (hf'.hex.isHex_byteAt (by omega) (by omega)) (hf.hex.isHex_byteAt (by omega) (by omega))
    (hf.hex.isHex_byteAt (by omega) (by omega)) (Option.some.inj heq)
  have hself := byteAt_set_self (data := data) (j := j) (by omega) b
  rcases hj with hj | hj
  · rw [show 1 + 2 * (0 + (pdu.length + 1)) = j by omega, hself] at hhigh
    exact hne hhigh
  · rw [show 2 + 2 * (0 + (pdu.length + 1)) = j by omega, hself] at hlow
    exact hne hlow

/-- Settles O52: another digit gives another last byte; a byte that is no digit offends the scan. -/
theorem asciiCorruptLrcIsRejected : Obligations.AsciiCorruptLrcIsRejected := by
  intro s t u data j b hr h ht hj hne hu
  obtain ⟨a, pdu, hd⟩ := decodesTo_of_exec_pasc hr h ht
  have hlen := hd.frameAt.le_length
  have hlt := hr.length_lt
  cases (hd.exec_pasc hr).symm.trans h
  have hframeLen : (BitVec.ofNat 16 (2 * pdu.length + 7)).toNat = 2 * pdu.length + 7 := lengthWord_toNat (by omega)
  simp only [endState, hframeLen] at hj
  exact ⟨fun hb => hd.exec_pasc_set_hex (by omega) hne hb hu,
    fun hb => exec_pasc_of_scan_error hu (hd.frameAt.asciiScan_set_not_hex (by omega) hb)⟩

end Sys2Proof.Machine

/-! SUPPORT. What a command leaves in the windows (R47), and what its results point at (R21 to R23). -/

namespace Sys2Proof.Machine

/-! ### Each window after a command -/

/-- How many cells of OUT a command may write, from cell 0 on, on `n` live bytes (R47). -/
def outReach (i : Instr) (n : Nat) : Nat :=
  match i with
  | .ertu | .ertuU => n + 3
  | .easc | .eascU => 2 * n + 7
  | .crc16 | .lrc | .vcrc16 | .vlrc | .prtuReq | .prtuRsp | .pasc | .prtuReqU | .prtuRspU | .pascU => 0

section Windows

variable {i : Instr} {s t : State} {data : List Byte} (hr : Ready s data) (h : exec i s = .next t)

include hr h

/-- A command whose prologue passes is a success, or leaves OUT as it was and IN but for what `PASC` has decoded. -/
theorem success_or_raise_of_exec :
    (∃ w r, Success s data i w r ∧ t = commandDone r w) ∨
      (t.status ≠ statusOk ∧ t.outW = s.outW ∧ (t.inW = s.inW ∨ ((i = .pasc ∨ i = .pascU) ∧
        ∃ m, asciiScan data = .ok m ∧ t.inW = s.inW.writeBytes 1 (pairsFrom data 0 m)))) := by
  rw [exec_of_ready hr] at h
  rcases commandBody_cases i hr with ⟨w, r, hb⟩ | ⟨w, k, hb⟩
  · rw [hb, commandEnd_done] at h
    cases h
    exact .inl ⟨w, r, commandBody_done hr hb, rfl⟩
  · rw [hb, commandEnd] at h
    split at h
    · cases h
      refine .inr ⟨statusCode_ne_ok k, ?_⟩
      rcases commandBody_raise hr hb with rfl | ⟨hi, -, m, hs, rfl⟩
      · exact ⟨rfl, .inl rfl⟩
      · exact ⟨rfl, .inr ⟨hi, m, hs, rfl⟩⟩
    · cases h

/-- IN is as it was, or holds what the ASCII parser has decoded. -/
theorem exec_inW :
    t.inW = s.inW ∨ ((i = .pasc ∨ i = .pascU) ∧
      ∃ m, asciiScan data = .ok m ∧ t.inW = s.inW.writeBytes 1 (pairsFrom data 0 m)) := by
  rcases success_or_raise_of_exec hr h with ⟨w, r, hs, rfl⟩ | ⟨-, -, hin⟩
  · cases hs with
    | ascii hi m hs _ => exact .inr ⟨hi, m, hs, rfl⟩
    | checksum | rtu | encRtu | encAscii => exact .inl rfl
  · exact hin

/-- OUT differs in its first cells at most, as many as R47 gives the command. -/
theorem exec_outW : ∃ bs : List Byte, bs.length ≤ outReach i data.length ∧ t.outW = s.outW.writeBytes 0 bs := by
  rcases success_or_raise_of_exec hr h with ⟨w, r, hs, rfl⟩ | ⟨-, hout, -⟩
  · cases hs with
    | encRtu hi => exact ⟨rtuFrame s.unit data, by rcases hi with rfl | rfl <;> exact (length_rtuFrame ..).le, rfl⟩
    | encAscii hi =>
      exact ⟨asciiFrame s.unit data, by rcases hi with rfl | rfl <;> exact (length_asciiFrame ..).le, rfl⟩
    | checksum | rtu | ascii => exact ⟨[], Nat.zero_le _, rfl⟩
  · exact ⟨[], Nat.zero_le _, hout⟩

theorem exec_outW_eq (hreach : outReach i data.length = 0) : t.outW = s.outW := by
  obtain ⟨bs, hbs, hout⟩ := exec_outW hr h
  obtain rfl : bs = [] := List.eq_nil_of_length_eq_zero (by omega)
  exact hout

theorem exec_outW_read {a : Nat} (ha : outReach i data.length ≤ a) : t.outW.read a = s.outW.read a := by
  obtain ⟨bs, hbs, hout⟩ := exec_outW hr h
  rw [hout, Memory.read_writeBytes_zero_of_length_le _ (hbs.trans ha)]

theorem exec_inW_eq (hpasc : i ≠ .pasc) (hpascU : i ≠ .pascU) : t.inW = s.inW :=
  (exec_inW hr h).resolve_right fun ⟨hi, _⟩ => hi.elim hpasc hpascU

end Windows

/-- Settles O18: `exec_inW` and `exec_outW` name the block written, and the cells outside it read as before. -/
theorem windowCellsOutsideTheTableAreUnchanged : Obligations.WindowCellsOutsideTheTableAreUnchanged := by
  intro i s t data hr h
  have hlen := hr.length
  have inEq {l : List Instr} (hi : i ∈ l) (hpasc : .pasc ∉ l) (hpascU : .pascU ∉ l) : t.inW = s.inW :=
    exec_inW_eq hr h (ne_of_mem_of_not_mem hi hpasc) (ne_of_mem_of_not_mem hi hpascU)
  have error (ht : t.status ≠ 0x00) : t.outW = s.outW := by
    obtain ⟨-, hout, -⟩ := exec_error h ht
    exact hout
  refine ⟨fun hi => ⟨inEq hi (by decide) (by decide), exec_outW_eq hr h (by fin_cases hi <;> rfl)⟩,
    fun hi => ⟨inEq hi (by decide) (by decide), error, fun a ha => ?_⟩,
    fun hi => ⟨inEq hi (by decide) (by decide), error, fun a ha => ?_⟩,
    fun hi => ⟨exec_outW_eq hr h (by fin_cases hi <;> rfl), fun k hk => ?_, fun m hm a ha => ?_⟩⟩
  · rw [← hlen] at ha
    exact exec_outW_read hr h (by fin_cases hi <;> exact ha)
  · rw [← hlen] at ha
    exact exec_outW_read hr h (by fin_cases hi <;> exact ha)
  · rcases exec_inW hr h with hin | ⟨-, m, hm, -⟩
    · exact hin
    · cases hk.symm.trans hm
  · rcases exec_inW hr h with hin | ⟨-, m', hm', hin⟩
    · rw [hin]
    · cases hm.symm.trans hm'
      rw [hin, Memory.read_writeBytes_one_outside _ _ (by rwa [length_pairsFrom])]

/-! ### What the results point at -/

theorem Memory.read_writeBytes_ne_none (m : Memory) {a b : Nat} {bs : List Byte} (hab : a ≤ b)
    (hb : b < a + bs.length) : (m.writeBytes a bs).read b ≠ none := by
  rw [Memory.read_writeBytes, if_pos ⟨hab, hb⟩, List.getElem?_eq_getElem (by omega)]
  exact Option.some_ne_none _

/-- A command that ends Ok has passed the prologue. -/
theorem ready_of_exec_ok {i : Instr} {s t : State} (h : exec i s = .next t) (ht : t.status = statusOk) :
    ∃ data, Ready s data := by
  rcases exec_next h with ⟨-, -, rfl⟩ | ⟨data, hr, -⟩
  · exact absurd ht (statusCode_ne_ok .windowOutOfRange)
  · exact ⟨data, hr⟩

/-- The PDU of a parse: not empty, inside the frame, the frame inside the live window, and each of its bytes there. -/
structure PduThere (t : State) : Prop where
  one_le : 1 ≤ t.pduLen.toNat
  in_frame : t.pduOff.toNat + t.pduLen.toNat ≤ t.frameLen.toNat
  frame_live : t.frameLen.toNat ≤ t.inLen.toNat
  values : ∀ k < t.pduLen.toNat, t.inW.read (t.pduOff.toNat + k) ≠ none

/-- The bytes of an encode: as many as the capacity allows, and each of them there. -/
structure FrameWritten (t : State) : Prop where
  fits : t.outLen.toNat ≤ t.outCap.toNat
  values : ∀ k < t.outLen.toNat, t.outW.read k ≠ none

theorem pduThere_rtu {dir : Dir} {s : State} {data : List Byte} {len : Nat} (hr : Ready s data)
    (hf : FrameThere dir data len) (a : Word) :
    PduThere
      (commandDone { addr := a, pduOff := 1, pduLen := lengthWord len, frameLen := lengthWord (len + 3) } s) := by
  have hlt := hr.length_lt
  have hlength := hr.length
  obtain ⟨-, hlen, hthere⟩ := hf
  have hpos := rtuPduLen_pos hlen
  have hl : (lengthWord len).toNat = len := lengthWord_toNat (by omega)
  have hl' : (lengthWord (len + 3)).toNat = len + 3 := lengthWord_toNat (by omega)
  have hone : (1 : Word).toNat = 1 := rfl
  constructor <;> simp only [commandDone_pduLen, commandDone_pduOff, commandDone_frameLen, commandDone_inLen,
    commandDone_inW, hl, hl', hone]
  · exact hpos
  · omega
  · omega
  · intro k hk
    rw [hr.read (by omega), List.getElem?_eq_getElem (by omega)]
    exact Option.some_ne_none _

theorem pduThere_ascii {s : State} {data : List Byte} {m : Nat} (hr : Ready s data) (hs : asciiScan data = .ok m)
    (a : Word) :
    PduThere (commandDone
      { addr := a, pduOff := 2, pduLen := lengthWord (m - 2), frameLen := lengthWord (2 * m + 3) }
      { s with inW := s.inW.writeBytes 1 (pairsFrom data 0 m) }) := by
  have hlt := hr.length_lt
  have hlength := hr.length
  have hf := asciiFrameAt_of_asciiScan hs
  have h3 := hf.three_le
  have hframe := hf.le_length
  have hl : (lengthWord (m - 2)).toNat = m - 2 := lengthWord_toNat (by omega)
  have hl' : (lengthWord (2 * m + 3)).toNat = 2 * m + 3 := lengthWord_toNat (by omega)
  have htwo : (2 : Word).toNat = 2 := rfl
  constructor <;> simp only [commandDone_pduLen, commandDone_pduOff, commandDone_frameLen, commandDone_inLen,
    commandDone_inW, hl, hl', htwo]
  · omega
  · omega
  · omega
  · intro k hk
    exact Memory.read_writeBytes_ne_none _ (by omega) (by rw [length_pairsFrom]; omega)

theorem frameWritten_writeBytes {s : State} {bs : List Byte} (hc : bs.length ≤ s.outCap.toNat) :
    FrameWritten (commandDone { outLen := lengthWord bs.length } { s with outW := s.outW.writeBytes 0 bs }) := by
  have hcap := s.outCap.isLt
  have hl : (lengthWord bs.length).toNat = bs.length := lengthWord_toNat (by omega)
  constructor <;> simp only [commandDone_outLen, commandDone_outCap, commandDone_outW, hl]
  · exact hc
  · exact fun k hk => Memory.read_writeBytes_ne_none _ (Nat.zero_le k) (by omega)

/-- Settles O20: each success that names a PDU or a written frame has it there. -/
theorem resultsPointIntoTheWindows : Obligations.ResultsPointIntoTheWindows := by
  intro i s t h ht
  obtain ⟨data, hr⟩ := ready_of_exec_ok h ht
  obtain ⟨w, r, hs, rfl⟩ := success_of_exec hr h ht
  suffices hgoal : (i ∈ [.prtuReq, .prtuRsp, .pasc, .prtuReqU, .prtuRspU, .pascU] → PduThere (commandDone r w)) ∧
      (i ∈ [.ertu, .easc, .ertuU, .eascU] → FrameWritten (commandDone r w)) by
    obtain ⟨hparse, hencode⟩ := hgoal
    exact ⟨fun hi => ⟨(hparse hi).one_le, (hparse hi).in_frame, (hparse hi).frame_live, (hparse hi).values⟩,
      fun hi => ⟨(hencode hi).fits, (hencode hi).values⟩⟩
  cases hs with
  | checksum hi v => constructor <;> intro hi' <;> fin_cases hi <;> simp at hi'
  | rtu dir hi len hf ht' =>
    refine ⟨fun _ => pduThere_rtu hr hf _, fun hi' => ?_⟩
    rcases hi with rfl | rfl <;> cases dir <;> simp [rtuCommand, rtuCommandU] at hi'
  | ascii hi m hs hl =>
    refine ⟨fun _ => pduThere_ascii hr hs _, fun hi' => ?_⟩
    rcases hi with rfl | rfl <;> simp at hi'
  | encRtu hi hc =>
    rw [← length_rtuFrame s.unit data] at hc ⊢
    refine ⟨fun hi' => ?_, fun _ => frameWritten_writeBytes hc⟩
    rcases hi with rfl | rfl <;> simp at hi'
  | encAscii hi hc =>
    rw [← length_asciiFrame s.unit data] at hc ⊢
    refine ⟨fun hi' => ?_, fun _ => frameWritten_writeBytes hc⟩
    rcases hi with rfl | rfl <;> simp at hi'

end Sys2Proof.Machine

/-! SUPPORT. Reset (R30, R190), the host's accesses to registers (R13, R18, R31) and its own control flow (R70). -/

namespace Sys2Proof.Machine

/-! ### Reset -/

theorem readReg_resetWith (r : Reg) (cfg : Config) : readReg r (State.resetWith cfg) = 0 := by cases r <;> rfl

/-- Settles O7: each register is one of the twelve fields, and no window lists a cell. -/
theorem resetZeroesRegistersAndEmptiesCells : Obligations.ResetZeroesRegistersAndEmptiesCells := fun cfg =>
  ⟨fun r => readReg_resetWith r cfg, Memory.read_nil, Memory.read_nil⟩

/-- Settles O8: the step's first test is for the reset event, its second for the fault state. -/
theorem resetIsTheOnlyWayOutOfTheFaultState : Obligations.ResetIsTheOnlyWayOutOfTheFaultState :=
  ⟨fun _ h => ⟨_, step_reset h, rfl⟩, fun _ => step_inFaultState⟩

/-! ### Registers -/

theorem hostAction_setReg {r : Reg} (hr : r ≠ .cmd) (v : Word) (s : State) :
    hostAction (.setReg (regNumber r) v) s = .next (storeReg r v s) := by
  cases r with
  | cmd => exact absurd rfl hr
  | status | inLen | outCap | unit | result | addr | pduOff | pduLen | frameLen | outLen | fault => rfl

theorem hostAction_getReg (r : Reg) (s : State) :
    hostAction (.getReg (regNumber r)) s = .next (reply (.reg (regNumber r)) (readReg r s) s) := by
  cases r <;> rfl

theorem hostAction_setReg_absent {no : Nat} (h : 12 ≤ no) (v : Word) (s : State) :
    hostAction (.setReg no v) s = .refused (.noSuchRegister no) := by
  rw [hostAction, regOfNumber_eq_none.2 h]

theorem hostAction_getReg_absent {no : Nat} (h : 12 ≤ no) (s : State) :
    hostAction (.getReg no) s = .refused (.noSuchRegister no) := by
  rw [hostAction, regOfNumber_eq_none.2 h]

/-- Settles O11: a number of 12 or above names no register. -/
theorem absentRegistersAreRefused : Obligations.AbsentRegistersAreRefused := fun _ _ hf hno =>
  ⟨fun v h => (step_action hf h).trans (hostAction_setReg_absent hno v _),
    fun h => (step_action hf h).trans (hostAction_getReg_absent hno _)⟩

/-- The registers whose writes are ignored (R13, R31). -/
def readOnlyRegs : List Reg := [.status, .result, .addr, .pduOff, .pduLen, .frameLen, .outLen, .fault]

/-- The registers in the order of their numbers (R13). -/
def allRegs : List Reg :=
  [.cmd, .status, .inLen, .outCap, .unit, .result, .addr, .pduOff, .pduLen, .frameLen, .outLen, .fault]

theorem storeReg_readOnly {r : Reg} (hr : r ∈ readOnlyRegs) (v : Word) (s : State) : storeReg r v s = s := by
  cases r with
  | cmd | inLen | outCap | unit => exact absurd hr (by decide)
  | status | result | addr | pduOff | pduLen | frameLen | outLen | fault => rfl

theorem readReg_advance (r : Reg) (s : State) : readReg r (advance s) = readReg r s := by cases r <;> rfl

section HostRegister

variable {s : State} (hf : s.fault = false)

include hf

theorem step_setReg {r : Reg} (hr : r ≠ .cmd) {v : Word}
    (h : nextLine s = some (.action (.setReg (regNumber r) v))) : step s = .next (storeReg r v (advance s)) := by
  rw [step_action hf h, hostAction_setReg hr]

theorem step_getReg {r : Reg} (h : nextLine s = some (.action (.getReg (regNumber r)))) :
    step s = .next (reply (.reg (regNumber r)) (readReg r s) (advance s)) := by
  rw [step_action hf h, hostAction_getReg, readReg_advance]

/-- `FAULT` reads 0 here, which is its bit zero-extended. -/
theorem numbered_readReg :
    [(0, s.cmd), (1, s.status.setWidth 16), (2, s.inLen), (3, s.outCap), (4, s.unit.setWidth 16), (5, s.result),
      (6, s.addr), (7, s.pduOff), (8, s.pduLen), (9, s.frameLen), (10, s.outLen),
      (11, (BitVec.ofBool s.fault).setWidth 16)] = allRegs.map fun r => (regNumber r, readReg r s) := by
  rw [hf]
  simp [allRegs, regNumber, readReg, zext16, hf]

end HostRegister

/-- Settles O9: a read answers `readReg`, a write is `storeReg`, and both move the host's position. -/
theorem hostRegisterAccessRules : Obligations.HostRegisterAccessRules := by
  intro s hf
  refine ⟨fun no v hno h => ?_, fun no v hno h => ?_, fun v h => step_setReg (r := .inLen) hf (by decide) h,
    fun v h => step_setReg (r := .outCap) hf (by decide) h, fun v h => ?_⟩
  · obtain ⟨r, hr, rfl⟩ := List.mem_map.1 (show no ∈ readOnlyRegs.map regNumber from hno)
    have hne : r ≠ .cmd := ne_of_mem_of_not_mem hr (by decide)
    rw [step_setReg hf hne h, storeReg_readOnly hr]
    rfl
  · rw [numbered_readReg hf] at hno
    obtain ⟨r, -, hr⟩ := List.mem_map.1 hno
    cases hr
    exact step_getReg hf h
  · rw [step_setReg (r := .unit) hf (by decide) h, storeReg, lowByte_eq_extract]
    rfl

/-- Settles O10: the write stores bits 7:0, and the read zero-extends them. -/
theorem unitDropsItsHighBits : Obligations.UnitDropsItsHighBits := by
  intro s v hf h h'
  refine ⟨storeReg .unit v (advance s), _, zext16 (lowByte v), step_setReg (r := .unit) hf (by decide) h,
    step_getReg (s := storeReg .unit v (advance s)) (r := .unit) hf h', rfl, ?_⟩
  rw [toNat_zext16, toNat_lowByte]

/-! ### Control flow -/

/-- Settles O14: each line of control flow is one case of `hostLine`. -/
theorem hostControlFlow : Obligations.HostControlFlow := by
  refine fun s hf => ⟨fun t h => ?_, fun x v t w h hread => ?_, fun x v t h hread => ?_, fun x v h => ?_, fun h => ?_⟩
  · rw [step_line hf h, hostLine, jumpTo]
  · rw [step_line hf h, hostLine, hread]
    by_cases hw : w = v
    · simp only [if_pos hw, jumpTo]
    · simp only [if_neg hw, advance]
  · rw [step_line hf h, hostLine, hread]
  · rw [step_line hf h, hostLine, advance]
  · rcases h with h | h
    · rw [step_line hf h, hostLine]
    · exact step_end hf h

/-! ### Ten words -/

/-- Settles O3: the eight legal words are table rows, and the other two set a field that R61 forbids. -/
theorem writtenOutWordsDecode : Obligations.WrittenOutWordsDecode := by
  unfold Obligations.WrittenOutWordsDecode
  decide

end Sys2Proof.Machine
